-- ==== Sys2Proof/Word.lean ====
section
/-! DEFINITION. The word types of the CORE (spec 00 R10): every register value is an unsigned number of its width. -/

namespace Sys2Proof

/-- A byte: a general register, a timer, a memory cell. -/
abbrev Byte := BitVec 8

/-- 16 bits: I, PC, a call-stack slot, an instruction word. -/
abbrev Word := BitVec 16

/-- The address field `nnn`. -/
abbrev Addr12 := BitVec 12

/-- A register index 0 to 15; the CORE has no banks, windows or aliases (spec 10 R20). -/
abbrev Reg := Fin 16

/-- VF, register 15, the flags output (spec 10 R22). -/
def Reg.vf : Reg := 15

end Sys2Proof
end

