-- ==== Sys2Proof/Syntax.lean ====
section
/-! DEFINITION. The instructions: one constructor per row of spec/opcode_table.json, in the table's order (spec 30 R77,
section 4). Every field has the width its encoding gives it (spec 30 R72). -/

namespace Sys2Proof

/-- The 35 recognized patterns. `x` and `y` are register indexes, `n` a row count, `nn` and `nnn` immediates. -/
inductive Instr where
  /-- 0NNN, but for the words 00E0 and 00EE (R100). -/
  | sys (nnn : Addr12)
  /-- 00E0 (R150). -/
  | cls
  /-- 00EE (R101). -/
  | ret
  /-- 1NNN (R102). -/
  | jp (nnn : Addr12)
  /-- 2NNN (R103). -/
  | call (nnn : Addr12)
  /-- 3XNN, SE Vx, nn (R104). -/
  | seImm (x : Reg) (nn : Byte)
  /-- 4XNN, SNE Vx, nn (R105). -/
  | sneImm (x : Reg) (nn : Byte)
  /-- 5XY0, SE Vx, Vy (R106). -/
  | seReg (x y : Reg)
  /-- 6XNN, LD Vx, nn (R122). -/
  | ldImm (x : Reg) (nn : Byte)
  /-- 7XNN, ADD Vx, nn (R123). -/
  | addImm (x : Reg) (nn : Byte)
  /-- 8XY0, LD Vx, Vy (R124). -/
  | ldReg (x y : Reg)
  /-- 8XY1, OR Vx, Vy (R125). -/
  | orReg (x y : Reg)
  /-- 8XY2, AND Vx, Vy (R126). -/
  | andReg (x y : Reg)
  /-- 8XY3, XOR Vx, Vy (R127). -/
  | xorReg (x y : Reg)
  /-- 8XY4, ADD Vx, Vy (R128). -/
  | addReg (x y : Reg)
  /-- 8XY5, SUB Vx, Vy (R129). -/
  | sub (x y : Reg)
  /-- 8XY6, SHR Vx; `y` is decoded and ignored (R130). -/
  | shr (x y : Reg)
  /-- 8XY7, SUBN Vx, Vy (R131). -/
  | subn (x y : Reg)
  /-- 8XYE, SHL Vx; `y` is decoded and ignored (R132). -/
  | shl (x y : Reg)
  /-- 9XY0, SNE Vx, Vy (R107). -/
  | sneReg (x y : Reg)
  /-- ANNN, LD I, nnn (R190). -/
  | ldI (nnn : Addr12)
  /-- BNNN, JP V0, nnn (R108). -/
  | jpV0 (nnn : Addr12)
  /-- CXNN, RND Vx, nn (R133). -/
  | rnd (x : Reg) (nn : Byte)
  /-- DXYN, DRW Vx, Vy, n (R151). -/
  | drw (x y : Reg) (n : Fin 16)
  /-- EX9E, SKP Vx (R170). -/
  | skp (x : Reg)
  /-- EXA1, SKNP Vx (R171). -/
  | sknp (x : Reg)
  /-- FX07, LD Vx, DT (R173). -/
  | ldVxDt (x : Reg)
  /-- FX0A, LD Vx, K (R172). -/
  | ldVxK (x : Reg)
  /-- FX15, LD DT, Vx (R174). -/
  | ldDtVx (x : Reg)
  /-- FX18, LD ST, Vx (R175). -/
  | ldStVx (x : Reg)
  /-- FX1E, ADD I, Vx (R191). -/
  | addI (x : Reg)
  /-- FX29, LD F, Vx (R192). -/
  | ldF (x : Reg)
  /-- FX33, LD B, Vx (R193). -/
  | ldB (x : Reg)
  /-- FX55, LD [I], Vx (R194). -/
  | ldMemVx (x : Reg)
  /-- FX65, LD Vx, [I] (R195). -/
  | ldVxMem (x : Reg)
  deriving DecidableEq, Repr

end Sys2Proof
end

