-- ==== Sys2Proof/Decode.lean ====
section
/-! DEFINITION. The decoder, total on any bytes, the encoder, and the opcode table (spec 30 R70 to R77, section 4).
Bit patterns: log 1. Strict matching of every fixed nibble: log 2. -/

namespace Sys2Proof

/-- Why bytes are not a recognized instruction, by name. A word with no row is no error: the step runs it as a no-op
(spec 30 R75, R79). -/
inductive DecodeReject where
  /-- 5XYk with k != 0. -/
  | group5 (w : Word)
  /-- 8XYk with k in 8, 9, A, B, C, D, F. -/
  | group8 (w : Word)
  /-- 9XYk with k != 0. -/
  | group9 (w : Word)
  /-- EXkk with kk not 9E or A1. -/
  | groupE (w : Word)
  /-- FXkk with kk none of the nine low bytes of the table. -/
  | groupF (w : Word)
  /-- Fewer than the 2 bytes of an instruction. -/
  | truncated
  deriving DecidableEq, Repr

/-- What the decoder answers. -/
inductive Decoded where
  | instr (i : Instr)
  | reject (r : DecodeReject)
  deriving DecidableEq, Repr

/-- `op = w[15:12]` (spec 30 R71). -/
def opOf (w : Word) : Fin 16 := (w.extractLsb' 12 4).toFin

/-- `x = w[11:8]` (spec 30 R71). -/
def xOf (w : Word) : Reg := (w.extractLsb' 8 4).toFin

/-- `y = w[7:4]` (spec 30 R71). -/
def yOf (w : Word) : Reg := (w.extractLsb' 4 4).toFin

/-- `n = w[3:0]` (spec 30 R71). -/
def nOf (w : Word) : Fin 16 := (w.extractLsb' 0 4).toFin

/-- `nn = w[7:0]` (spec 30 R71). -/
def nnOf (w : Word) : Byte := w.extractLsb' 0 8

/-- `nnn = w[11:0]` (spec 30 R71). -/
def nnnOf (w : Word) : Addr12 := w.extractLsb' 0 12

/-- Group 0: CLS, RET, and SYS for every other word (spec 30 R77). -/
def decode0 (w : Word) : Decoded :=
  if w = 0x00E0#16 then .instr .cls
  else if w = 0x00EE#16 then .instr .ret
  else .instr (.sys (nnnOf w))

/-- Group 8, selected by the trailing nibble (spec 30 R76, R77). -/
def decode8 (w : Word) : Decoded :=
  match nOf w with
  | 0x0 => .instr (.ldReg (xOf w) (yOf w))
  | 0x1 => .instr (.orReg (xOf w) (yOf w))
  | 0x2 => .instr (.andReg (xOf w) (yOf w))
  | 0x3 => .instr (.xorReg (xOf w) (yOf w))
  | 0x4 => .instr (.addReg (xOf w) (yOf w))
  | 0x5 => .instr (.sub (xOf w) (yOf w))
  | 0x6 => .instr (.shr (xOf w) (yOf w))
  | 0x7 => .instr (.subn (xOf w) (yOf w))
  | 0xE => .instr (.shl (xOf w) (yOf w))
  | _ => .reject (.group8 w)

/-- Group E, selected by the low byte (spec 30 R76, R77). -/
def decodeE (w : Word) : Decoded :=
  if nnOf w = 0x9E#8 then .instr (.skp (xOf w))
  else if nnOf w = 0xA1#8 then .instr (.sknp (xOf w))
  else .reject (.groupE w)

/-- Group F, selected by the low byte (spec 30 R76, R77). -/
def decodeF (w : Word) : Decoded :=
  if nnOf w = 0x07#8 then .instr (.ldVxDt (xOf w))
  else if nnOf w = 0x0A#8 then .instr (.ldVxK (xOf w))
  else if nnOf w = 0x15#8 then .instr (.ldDtVx (xOf w))
  else if nnOf w = 0x18#8 then .instr (.ldStVx (xOf w))
  else if nnOf w = 0x1E#8 then .instr (.addI (xOf w))
  else if nnOf w = 0x29#8 then .instr (.ldF (xOf w))
  else if nnOf w = 0x33#8 then .instr (.ldB (xOf w))
  else if nnOf w = 0x55#8 then .instr (.ldMemVx (xOf w))
  else if nnOf w = 0x65#8 then .instr (.ldVxMem (xOf w))
  else .reject (.groupF w)

/-- `Decode(w)`: a function of the word alone (spec 30 R74), by leading nibble as the opcode map of R77 groups it. The
last arm is leading nibble 0xF, the one value of the nibble not named above it. -/
def decode (w : Word) : Decoded :=
  match opOf w with
  | 0x0 => decode0 w
  | 0x1 => .instr (.jp (nnnOf w))
  | 0x2 => .instr (.call (nnnOf w))
  | 0x3 => .instr (.seImm (xOf w) (nnOf w))
  | 0x4 => .instr (.sneImm (xOf w) (nnOf w))
  | 0x5 => if nOf w = 0 then .instr (.seReg (xOf w) (yOf w)) else .reject (.group5 w)
  | 0x6 => .instr (.ldImm (xOf w) (nnOf w))
  | 0x7 => .instr (.addImm (xOf w) (nnOf w))
  | 0x8 => decode8 w
  | 0x9 => if nOf w = 0 then .instr (.sneReg (xOf w) (yOf w)) else .reject (.group9 w)
  | 0xA => .instr (.ldI (nnnOf w))
  | 0xB => .instr (.jpV0 (nnnOf w))
  | 0xC => .instr (.rnd (xOf w) (nnOf w))
  | 0xD => .instr (.drw (xOf w) (yOf w) (nOf w))
  | 0xE => decodeE w
  | _ => decodeF w

/-- A word from its two bytes in memory order: the first byte is the high one (spec 20 R54, R55). -/
def wordOfBytes (hi lo : Byte) : Word := hi ++ lo

/-- The decoder on bytes: the instruction and the bytes after it. Every instruction is 2 bytes (spec 30 R70, R80). -/
def decodeBytes : List Byte → Decoded × List Byte
  | hi :: lo :: rest => (decode (wordOfBytes hi lo), rest)
  | short => (.reject .truncated, short)

/-- A word from its leading nibble, its second nibble and its low byte. -/
def encXNN (op : Fin 16) (x : Reg) (nn : Byte) : Word := BitVec.ofFin (w := 4) op ++ BitVec.ofFin (w := 4) x ++ nn

/-- A word from its leading nibble and its low 12 bits. -/
def encNNN (op : Fin 16) (nnn : Addr12) : Word := BitVec.ofFin (w := 4) op ++ nnn

/-- A word from its four nibbles. -/
def encXYN (op : Fin 16) (x y : Reg) (n : Fin 16) : Word :=
  BitVec.ofFin (w := 4) op ++ BitVec.ofFin (w := 4) x ++ BitVec.ofFin (w := 4) y ++ BitVec.ofFin (w := 4) n

/-- The encoder, written from the patterns of spec 30 section 4. `SHR` and `SHL` keep their ignored `y`. -/
def encode : Instr → Word
  | .sys nnn => encNNN 0x0 nnn
  | .cls => 0x00E0
  | .ret => 0x00EE
  | .jp nnn => encNNN 0x1 nnn
  | .call nnn => encNNN 0x2 nnn
  | .seImm x nn => encXNN 0x3 x nn
  | .sneImm x nn => encXNN 0x4 x nn
  | .seReg x y => encXYN 0x5 x y 0x0
  | .ldImm x nn => encXNN 0x6 x nn
  | .addImm x nn => encXNN 0x7 x nn
  | .ldReg x y => encXYN 0x8 x y 0x0
  | .orReg x y => encXYN 0x8 x y 0x1
  | .andReg x y => encXYN 0x8 x y 0x2
  | .xorReg x y => encXYN 0x8 x y 0x3
  | .addReg x y => encXYN 0x8 x y 0x4
  | .sub x y => encXYN 0x8 x y 0x5
  | .shr x y => encXYN 0x8 x y 0x6
  | .subn x y => encXYN 0x8 x y 0x7
  | .shl x y => encXYN 0x8 x y 0xE
  | .sneReg x y => encXYN 0x9 x y 0x0
  | .ldI nnn => encNNN 0xA nnn
  | .jpV0 nnn => encNNN 0xB nnn
  | .rnd x nn => encXNN 0xC x nn
  | .drw x y n => encXYN 0xD x y n
  | .skp x => encXNN 0xE x 0x9E
  | .sknp x => encXNN 0xE x 0xA1
  | .ldVxDt x => encXNN 0xF x 0x07
  | .ldVxK x => encXNN 0xF x 0x0A
  | .ldDtVx x => encXNN 0xF x 0x15
  | .ldStVx x => encXNN 0xF x 0x18
  | .addI x => encXNN 0xF x 0x1E
  | .ldF x => encXNN 0xF x 0x29
  | .ldB x => encXNN 0xF x 0x33
  | .ldMemVx x => encXNN 0xF x 0x55
  | .ldVxMem x => encXNN 0xF x 0x65

/-- The two bytes of an instruction in memory order. -/
def encodeBytes (i : Instr) : List Byte := [(encode i).extractLsb' 8 8, (encode i).extractLsb' 0 8]

/-- A row of the opcode table: its mask, its match, and the words it leaves to another row. -/
structure OpcodeRow where
  mask : Word
  value : Word
  exclude : List Word := []
  deriving DecidableEq, Repr

/-- A row matches a word when the masked word is the row's match and the word is not excluded (spec 30 R74). -/
def OpcodeRow.matches (r : OpcodeRow) (w : Word) : Bool := w &&& r.mask == r.value && !r.exclude.contains w

/-- The row of the table each instruction stands for, mask and match as spec 30 section 4 prints them. -/
def Instr.row : Instr → OpcodeRow
  | .sys _ => ⟨0xF000, 0x0000, [0x00E0, 0x00EE]⟩
  | .cls => ⟨0xFFFF, 0x00E0, []⟩
  | .ret => ⟨0xFFFF, 0x00EE, []⟩
  | .jp _ => ⟨0xF000, 0x1000, []⟩
  | .call _ => ⟨0xF000, 0x2000, []⟩
  | .seImm _ _ => ⟨0xF000, 0x3000, []⟩
  | .sneImm _ _ => ⟨0xF000, 0x4000, []⟩
  | .seReg _ _ => ⟨0xF00F, 0x5000, []⟩
  | .ldImm _ _ => ⟨0xF000, 0x6000, []⟩
  | .addImm _ _ => ⟨0xF000, 0x7000, []⟩
  | .ldReg _ _ => ⟨0xF00F, 0x8000, []⟩
  | .orReg _ _ => ⟨0xF00F, 0x8001, []⟩
  | .andReg _ _ => ⟨0xF00F, 0x8002, []⟩
  | .xorReg _ _ => ⟨0xF00F, 0x8003, []⟩
  | .addReg _ _ => ⟨0xF00F, 0x8004, []⟩
  | .sub _ _ => ⟨0xF00F, 0x8005, []⟩
  | .shr _ _ => ⟨0xF00F, 0x8006, []⟩
  | .subn _ _ => ⟨0xF00F, 0x8007, []⟩
  | .shl _ _ => ⟨0xF00F, 0x800E, []⟩
  | .sneReg _ _ => ⟨0xF00F, 0x9000, []⟩
  | .ldI _ => ⟨0xF000, 0xA000, []⟩
  | .jpV0 _ => ⟨0xF000, 0xB000, []⟩
  | .rnd _ _ => ⟨0xF000, 0xC000, []⟩
  | .drw _ _ _ => ⟨0xF000, 0xD000, []⟩
  | .skp _ => ⟨0xF0FF, 0xE09E, []⟩
  | .sknp _ => ⟨0xF0FF, 0xE0A1, []⟩
  | .ldVxDt _ => ⟨0xF0FF, 0xF007, []⟩
  | .ldVxK _ => ⟨0xF0FF, 0xF00A, []⟩
  | .ldDtVx _ => ⟨0xF0FF, 0xF015, []⟩
  | .ldStVx _ => ⟨0xF0FF, 0xF018, []⟩
  | .addI _ => ⟨0xF0FF, 0xF01E, []⟩
  | .ldF _ => ⟨0xF0FF, 0xF029, []⟩
  | .ldB _ => ⟨0xF0FF, 0xF033, []⟩
  | .ldMemVx _ => ⟨0xF0FF, 0xF055, []⟩
  | .ldVxMem _ => ⟨0xF0FF, 0xF065, []⟩

/-- The 35 rows in the order of spec 30 section 4. -/
def opcodeTable : List OpcodeRow :=
  [Instr.row (.sys 0), Instr.row .cls, Instr.row .ret, Instr.row (.jp 0), Instr.row (.call 0), Instr.row (.seImm 0 0),
    Instr.row (.sneImm 0 0), Instr.row (.seReg 0 0), Instr.row (.ldImm 0 0), Instr.row (.addImm 0 0)] ++
  [Instr.row (.ldReg 0 0), Instr.row (.orReg 0 0), Instr.row (.andReg 0 0), Instr.row (.xorReg 0 0),
    Instr.row (.addReg 0 0), Instr.row (.sub 0 0), Instr.row (.shr 0 0), Instr.row (.subn 0 0), Instr.row (.shl 0 0),
    Instr.row (.sneReg 0 0)] ++
  [Instr.row (.ldI 0), Instr.row (.jpV0 0), Instr.row (.rnd 0 0), Instr.row (.drw 0 0 0), Instr.row (.skp 0),
    Instr.row (.sknp 0), Instr.row (.ldVxDt 0), Instr.row (.ldVxK 0), Instr.row (.ldDtVx 0), Instr.row (.ldStVx 0)] ++
  [Instr.row (.addI 0), Instr.row (.ldF 0), Instr.row (.ldB 0), Instr.row (.ldMemVx 0), Instr.row (.ldVxMem 0)]

/-- The two bytes of the table word `w` of `nbits` bits, as the hardware stores them: high byte first. Bits above
`nbits` are 0. -/
def tableWordBytes (nbits w : Nat) : List Byte :=
  let v := w % 2 ^ nbits
  [BitVec.ofNat 8 (v / 256), BitVec.ofNat 8 v]

/-- The instruction the decoder reads from a table word; none where it refuses. -/
def decodeTableWord (nbits w : Nat) : Option Instr :=
  match (decodeBytes (tableWordBytes nbits w)).1 with
  | .instr i => some i
  | .reject _ => none

end Sys2Proof
end

