-- ==== Sys2Proof/Config.lean ====
section
/-! DEFINITION. The implementation parameters of spec 00 R8 that are sizes, the types of the parameters that select a
behaviour, and the CORE's one free value. The selected behaviours themselves stand in Machine/ (Flags, Display, Font). -/

namespace Sys2Proof

/-- `MEM_SIZE`: addresses 0x000 to 0xFFF (spec 00 R8, 20 R50). -/
abbrev Config.memSize : Nat := 4096

/-- `PROG_ORIGIN`: where a program is loaded and where PC starts (spec 00 R8). -/
abbrev Config.progOrigin : Nat := 0x200

/-- `FONT_BASE` (spec 00 R8). -/
abbrev Config.fontBase : Nat := 0x000

/-- `FONT_GLYPH_BYTES` (spec 00 R8). -/
abbrev Config.fontGlyphBytes : Nat := 5

/-- `STEPS_PER_FRAME`: the reference host's batch, which no rule of the CORE depends on (spec 00 R8, 60 R232). -/
abbrev Config.stepsPerFrame : Nat := 10

/-- `SHIFT_VF_ORDER` (spec 00 R8, 93 U3): when a flag instruction writes VF, relative to its result. -/
inductive VfOrder where
  | flagLast
  | flagFirst
  deriving DecidableEq, Repr

/-- `SPRITE_BIT_ORDER` (spec 00 R8, 93 U14): which bit of a sprite byte is the leftmost pixel. -/
inductive SpriteBitOrder where
  | msbLeft
  | lsbLeft
  deriving DecidableEq, Repr

/-- `rand8()`, the byte drawn by the n-th execution of CXNN (spec 60 R231): a FREE VALUE, any of the 256 values with no
relation between draws. It has no body, so nothing can be proved of a draw. Log 5. -/
opaque Config.rand8 : Nat → Byte

end Sys2Proof
end

