-- ==== Sys2Proof/Machine/Memory.lean ====
section
/-! DEFINITION. The byte store as plain data: a list of (address, byte) pairs in one canonical form. Addresses rise
strictly and lie in memory, and no entry repeats what an unlisted address reads as. -/

namespace Sys2Proof.Machine

/-- The bytes that differ from the memory's reset contents, by rising address. -/
abbrev Memory := List Host.Cell

/-- What an unlisted address reads as: the memory's contents after reset, the font at 0x000 to 0x04F and 0x00 at every
other address (spec 10 R38, 20 R60, R61, 70 R251; log 4, log 8). -/
def Memory.unlisted (a : Nat) : Byte :=
  if Config.fontBase ≤ a then fontTable.getD (a - Config.fontBase) 0x00 else 0x00

/-- `MEM[a]`. -/
def Memory.read : Memory → Nat → Byte
  | [], a => Memory.unlisted a
  | (k, b) :: m, a => if a = k then b else Memory.read m a

/-- An entry, left out when it says what the unlisted address reads as. -/
def Memory.entry (a : Nat) (b : Byte) : Memory := if b = Memory.unlisted a then [] else [(a, b)]

/-- `MEM[a] <- b`, keeping the canonical form. -/
def Memory.write : Memory → Nat → Byte → Memory
  | [], a, b => Memory.entry a b
  | (k, c) :: m, a, b =>
    if a < k then Memory.entry a b ++ (k, c) :: m
    else if a = k then Memory.entry a b ++ m
    else (k, c) :: Memory.write m a b

/-- `MEM[a], MEM[a+1], ..., MEM[a+n-1]`. -/
def Memory.readBytes (m : Memory) (a : Nat) : Nat → List Byte
  | 0 => []
  | n + 1 => m.read a :: Memory.readBytes m (a + 1) n

/-- `MEM[a+k] <- bs[k]` for every k. -/
def Memory.writeBytes (m : Memory) (a : Nat) : List Byte → Memory
  | [] => m
  | b :: bs => Memory.writeBytes (m.write a b) (a + 1) bs

/-- The canonical form of the entries from address `lo` on. -/
def Memory.wfFrom (lo : Nat) : Memory → Bool
  | [] => true
  | (k, b) :: m => decide (lo ≤ k) && decide (k < Config.memSize) && b != Memory.unlisted k && Memory.wfFrom (k + 1) m

/-- The canonical form: equal memories are equal lists. -/
def Memory.wf (m : Memory) : Bool := Memory.wfFrom 0 m

end Sys2Proof.Machine
end

