-- ==== Sys2Proof/Machine/State.lean ====
section
/-! DEFINITION. The CORE's state as plain data (spec 10), its faults, its refusals, and the state after reset. -/

namespace Sys2Proof.Machine

/-- Which bounds-checked access raised a bounds fault (spec 60 R210). -/
inductive Access where
  | fetch
  | read
  | write
  | keypad
  deriving DecidableEq, Repr

/-- The two stack faults (spec 60 R212). -/
inductive StackError where
  | overflow
  | underflow
  deriving DecidableEq, Repr

/-- The two host key events (spec 60 R226). -/
inductive KeyEvent where
  | press
  | release
  deriving DecidableEq, Repr

/-- The fault values of spec 60 R210. A step or host operation that raises one RECORDS it in `State.fault` and answers a
next state (spec 60 R216, log 13): the CORE goes on existing, faulted, so no step ever answers `Outcome.fault`. -/
inductive Fault where
  /-- `BoundsFault(access, addr, n)`. Raised by the fetch, DXYN, FX65, FX33, FX55, EX9E and EXA1 (spec 60 R210, R211).
  Safe: a claim cannot go past it. -/
  | bounds (access : Access) (addr n : Nat)
  /-- `StackFault`. Raised by CALL at SP = 16 and RET at SP = 0 (spec 60 R212). Safe. -/
  | stack (e : StackError)
  /-- `HostContractFault`. Raised by a host key event with an index above 15 (spec 60 R226). Safe. -/
  | hostContract (e : KeyEvent) (k : Nat)
  deriving DecidableEq, Repr

/-- Why the model answers no next state. `step` never refuses: only the host's program load does. -/
inductive Refusal where
  /-- An instruction with no meaning yet. No arm of `exec` answers it: every instruction is modelled. Safe. -/
  | notModelled (mnemonic : String)
  /-- A program image of `len` bytes, above 3584: the load reports a bounds error and changes nothing (spec 70 R254).
  Safe: it is the spec's own outcome. -/
  | imageTooLong (len : Nat)
  /-- The host cannot read the image: the load reports an I/O error and changes nothing (spec 70 R255). Safe. -/
  | imageUnreadable
  /-- A load while FAULT is set is refused and changes nothing (spec 60 R235, 70 R253). Safe. -/
  | loadWhileFaulted
  deriving DecidableEq, Repr

/-- The fault record: the fault value, and the PC at the start of the step that raised it, or `none` for a host
operation (spec 10 R33, 60 R210). -/
structure FaultRecord where
  value : Fault
  insnAddr : Option Word
  deriving DecidableEq, Repr

/-- `DISP[y][x]`, row `y` 0 to 31, column `x` 0 to 63 (spec 00 R11, 10 R29). -/
abbrev Display := Vector (Vector Bool 64) 32

/-- `V[0]` to `V[15]`. -/
abbrev RegFile := Vector Byte 16

/-- Every piece of state the spec gives the CORE (spec 10), and the model's own count of the random draws. -/
structure State where
  /-- `V[0]` to `V[15]` (R20). -/
  v : RegFile
  /-- The index register `I` (R23). -/
  i : Word
  /-- The program counter `PC` (R24). -/
  pc : Word
  /-- The call-stack slots `STACK[0]` to `STACK[15]` (R25). -/
  stack : Vector Word 16
  /-- `SP`, the number of occupied slots, 0 to 16 (R26). -/
  sp : Fin 17
  /-- The delay timer `DT` (R27). -/
  dt : Byte
  /-- The sound timer `ST` (R28). -/
  st : Byte
  /-- The display buffer `DISP` (R29). -/
  disp : Display
  /-- The dirty flag `DIRTY` (R30). -/
  dirty : Bool
  /-- The keypad state `KEY[0]` to `KEY[15]` (R31). -/
  keys : Vector Bool 16
  /-- The memory `MEM[0]` to `MEM[4095]` (R32). -/
  mem : Memory
  /-- The fault record `FAULT` (R33). -/
  fault : Option FaultRecord
  /-- THE MODEL'S OWN: how many bytes CXNN has drawn, the argument of the free value `Config.rand8` (log 5). -/
  draws : Nat
  deriving DecidableEq, Repr

/-- The state after reset and at power-on (spec 10 R38, 70 R250 to R252). Memory lists nothing: an unlisted address reads
as its reset contents. `draws` is no state of the spec (DESIGN CHOICE, log 5). -/
def State.reset : State where
  v := Vector.replicate 16 0x00
  i := 0x0000
  pc := 0x0200
  stack := Vector.replicate 16 0x0000
  sp := 0
  dt := 0x00
  st := 0x00
  disp := Vector.replicate 32 (Vector.replicate 64 false)
  dirty := false
  keys := Vector.replicate 16 false
  mem := []
  fault := none
  draws := 0

end Sys2Proof.Machine
end

