-- ==== Sys2Proof/Machine/Ops.lean ====
section
/-! DEFINITION. The named operations over registers, memory, call stack, keypad and fault record that every meaning
shares, the raising of a fault among them. A fault is the CORE's one exceptional event: it has no handler and no return
(spec 60 R218, R219), so "taking an exception" here is recording the fault. -/

namespace Sys2Proof.Machine

/-- What a step or a meaning answers. -/
abbrev Result := Host.Outcome State Fault Refusal

/-! ### Registers -/

/-- `V[x]` (spec 00 R11). -/
def State.reg (s : State) (x : Reg) : Byte := s.v[x]

/-- `V[x] <- b`; no register is hardwired (spec 10 R21). -/
def State.setReg (s : State) (x : Reg) (b : Byte) : State := { s with v := s.v.set x b }

/-- `I <- w`. -/
def State.setI (s : State) (w : Word) : State := { s with i := w }

/-- `PC <- w`. -/
def State.setPc (s : State) (w : Word) : State := { s with pc := w }

/-- `DT <- b`. -/
def State.setDt (s : State) (b : Byte) : State := { s with dt := b }

/-- `ST <- b`. -/
def State.setSt (s : State) (b : Byte) : State := { s with st := b }

/-- `DIRTY <- b`. -/
def State.setDirty (s : State) (b : Bool) : State := { s with dirty := b }

/-- The whole display at once. -/
def State.setDisp (s : State) (d : Display) : State := { s with disp := d }

/-- The whole memory at once. -/
def State.setMem (s : State) (m : Memory) : State := { s with mem := m }

/-- The whole register file at once. -/
def State.setV (s : State) (v : RegFile) : State := { s with v := v }

/-- One more byte drawn (log 5). -/
def State.countDraw (s : State) : State := { s with draws := s.draws + 1 }

/-- `PC <- (PC + 2) mod 65536`: the advance of every step, and the extra advance of a taken skip (spec 10 R24, 30 R73). -/
def State.advance (s : State) : State := s.setPc (s.pc + 2)

/-- `PC <- (PC - 2) mod 65536`: the rewind of FX0A (spec 10 R24, 44 R172). -/
def State.rewind (s : State) : State := s.setPc (s.pc - 2)

/-- A conditional skip (spec 41 R109). -/
def State.skipIf (s : State) (c : Bool) : State := if c then s.advance else s

/-! ### Memory primitives -/

/-- `MemRead(addr, n)` (spec 20 R52): the bound is checked on the exact sum. -/
def memRead (m : Memory) (addr n : Nat) : Except Fault (List Byte) :=
  if addr + n > Config.memSize then .error (.bounds .read addr n) else .ok (m.readBytes addr n)

/-- `MemWrite(addr, n, bytes)` (spec 20 R53): checked before any byte is written. -/
def memWrite (m : Memory) (addr : Nat) (bytes : List Byte) : Except Fault Memory :=
  if addr + bytes.length > Config.memSize then .error (.bounds .write addr bytes.length)
  else .ok (m.writeBytes addr bytes)

/-- `FetchWord(addr)` (spec 20 R54): big-endian, at any address, odd ones included (spec 20 R56). -/
def fetchWord (m : Memory) (addr : Nat) : Except Fault Word :=
  if addr + 2 > Config.memSize then .error (.bounds .fetch addr 2)
  else .ok (wordOfBytes (m.read addr) (m.read (addr + 1)))

/-- A word placed where it will be fetched, high byte first; a byte outside memory is dropped. -/
def storeWord (m : Memory) (addr : Nat) (bytes : List Byte) : Memory :=
  if addr + bytes.length > Config.memSize then m else m.writeBytes addr bytes

/-! ### Faults -/

/-- Set FAULT, unless it is set already: a second fault does not replace the first (spec 60 R216, R235). -/
def State.record (s : State) (r : FaultRecord) : State :=
  match s.fault with
  | none => { s with fault := some r }
  | some _ => s

/-- RAISING A FAULT WHILE AN INSTRUCTION EXECUTES, the CORE's taking of an exception (spec 60 R216, R217): the record
holds the fault and the instruction's address, which is PC - 2 here because the step has advanced PC (spec 30 R73).
Nothing else changes: PC stays advanced, no vector is taken, no register is saved (spec 60 R218). -/
def State.raise (s : State) (f : Fault) : State := s.record ⟨f, some (s.pc - 2)⟩

/-- Raising a fault in the fetch: PC has not advanced (spec 30 R73, 60 R217). -/
def State.raiseFetch (s : State) (f : Fault) : State := s.record ⟨f, some s.pc⟩

/-- Raising a fault in a host operation: no instruction address (spec 60 R210). -/
def State.raiseHost (s : State) (f : Fault) : State := s.record ⟨f, none⟩

/-- Go on with the value of an access, or raise its fault; a fault writes nothing else (spec 00 R13, 60 R217). -/
def orRaise {α : Type} (s : State) (r : Except Fault α) (k : α → State) : Result :=
  match r with
  | .ok a => .next (k a)
  | .error f => .next (s.raise f)

/-! ### Call stack -/

/-- Push (spec 10 R26, 41 R103): `STACK[SP] <- w; SP <- SP + 1`, a stack fault at SP = 16. -/
def State.push (s : State) (w : Word) : Except Fault State :=
  if h : s.sp.val < 16 then
    .ok { s with stack := s.stack.set s.sp.val w, sp := ⟨s.sp.val + 1, Nat.succ_lt_succ h⟩ }
  else .error (.stack .overflow)

/-- Pop (spec 10 R26, 41 R101): `SP <- SP - 1`, then the address is `STACK[SP]`, which keeps its value (log 14); a stack
fault at SP = 0. -/
def State.pop (s : State) : Except Fault (Word × State) :=
  match s.sp with
  | ⟨0, _⟩ => .error (.stack .underflow)
  | ⟨n + 1, h⟩ => .ok (s.stack[n]'(Nat.lt_of_succ_lt_succ h), { s with sp := ⟨n, Nat.lt_of_succ_lt h⟩ })

/-! ### Keypad -/

/-- `KEY[k]` for a key index that is 0 to 15; a bounds fault on the keypad for a larger one (spec 44 R170, log 9). -/
def State.key (s : State) (k : Nat) : Except Fault Bool :=
  if h : k < 16 then .ok s.keys[k] else .error (.bounds .keypad k 1)

/-- `KEY[k] <- b` (spec 60 R226). -/
def State.setKey (s : State) (k : Fin 16) (b : Bool) : State := { s with keys := s.keys.set k b }

/-- `min { k : KEY[k] }`, none while no key is pressed (spec 44 R172). -/
def State.lowestKey (s : State) : Option (Fin 16) := (List.finRange 16).find? fun k => s.keys[k]

end Sys2Proof.Machine
end

