-- ==== Sys2Proof/Machine/Flags.lean ====
section
/-! DEFINITION. The arithmetic/logic unit's results and its flag output in VF (spec 42 R120, R121). Sums and differences
are exact integers, reduced modulo 256 at the end (spec 00 R10). -/

namespace Sys2Proof.Machine

/-- `(a + b) mod 256`. -/
def sumByte (a b : Byte) : Byte := BitVec.ofNat 8 (a.toNat + b.toNat)

/-- `(a - b) mod 256`. -/
def diffByte (a b : Byte) : Byte := BitVec.ofInt 8 ((a.toNat : Int) - (b.toNat : Int))

/-- A flag value, 1 or 0. -/
def flagByte (c : Bool) : Byte := if c then 1 else 0

/-- Carry: 1 when the exact sum exceeds 255 (spec 42 R128). -/
def carry (a b : Byte) : Byte := flagByte (decide (a.toNat + b.toNat > 255))

/-- Not-borrow: 1 when the minuend `a` is at least the subtrahend `b` (spec 42 R129, R131). -/
def notBorrow (a b : Byte) : Byte := flagByte (decide (a.toNat ≥ b.toNat))

/-- The bit a right shift moves out: old bit 0 (spec 42 R130). -/
def lowBit (a : Byte) : Byte := a &&& 1

/-- The bit a left shift moves out: old bit 7 (spec 42 R132). -/
def highBit (a : Byte) : Byte := (a >>> 7) &&& 1

/-- The parameter `SHIFT_VF_ORDER` of this hardware (spec 00 R8, decision D5; log 6). -/
def shiftVfOrder : VfOrder := .flagLast

/-- A flag instruction (spec 42 R121, 93 U3) with result `op V[x] V[y]` and flag `flag V[x] V[y]`. `flagLast`: both are
computed from the registers as they are at the start, `V[x]` is written, then VF. `flagFirst`: VF is written, then the
result is computed from the registers as they are now. -/
def State.withFlag (order : VfOrder) (op flag : Byte → Byte → Byte) (x y : Reg) (s : State) : State :=
  match order with
  | .flagLast => (s.setReg x (op (s.reg x) (s.reg y))).setReg Reg.vf (flag (s.reg x) (s.reg y))
  | .flagFirst =>
    let s' := s.setReg Reg.vf (flag (s.reg x) (s.reg y))
    s'.setReg x (op (s'.reg x) (s'.reg y))

end Sys2Proof.Machine
end

