-- ==== Sys2Proof/Machine/Alu.lean ====
section
/-! DEFINITION. The immediate operations, the 8XYk group and RND (spec 42). -/

namespace Sys2Proof.Machine

/-- LD Vx, nn (R122). -/
def execLdImm (x : Reg) (nn : Byte) (s : State) : Result := .next (s.setReg x nn)

/-- ADD Vx, nn: no flag (R123). -/
def execAddImm (x : Reg) (nn : Byte) (s : State) : Result := .next (s.setReg x (sumByte (s.reg x) nn))

/-- LD Vx, Vy (R124). -/
def execLdReg (x y : Reg) (s : State) : Result := .next (s.setReg x (s.reg y))

/-- OR Vx, Vy: no flag (R125). -/
def execOrReg (x y : Reg) (s : State) : Result := .next (s.setReg x (s.reg x ||| s.reg y))

/-- AND Vx, Vy: no flag (R126). -/
def execAndReg (x y : Reg) (s : State) : Result := .next (s.setReg x (s.reg x &&& s.reg y))

/-- XOR Vx, Vy: no flag (R127). -/
def execXorReg (x y : Reg) (s : State) : Result := .next (s.setReg x (s.reg x ^^^ s.reg y))

/-- ADD Vx, Vy: VF = carry, last, an order the source itself states (R121, R128). -/
def execAddReg (x y : Reg) (s : State) : Result := .next (s.withFlag .flagLast sumByte carry x y)

/-- SUB Vx, Vy: `V[x] - V[y]`, VF = not borrow (R129). -/
def execSub (x y : Reg) (s : State) : Result := .next (s.withFlag shiftVfOrder diffByte notBorrow x y)

/-- SHR Vx: `V[y]` is never read (R130). -/
def execShr (x y : Reg) (s : State) : Result :=
  .next (s.withFlag shiftVfOrder (fun a _ => a >>> 1) (fun a _ => lowBit a) x y)

/-- SUBN Vx, Vy: `V[y] - V[x]`, VF = not borrow (R131). -/
def execSubn (x y : Reg) (s : State) : Result :=
  .next (s.withFlag shiftVfOrder (fun a b => diffByte b a) (fun a b => notBorrow b a) x y)

/-- SHL Vx: `V[y]` is never read (R132). -/
def execShl (x y : Reg) (s : State) : Result :=
  .next (s.withFlag shiftVfOrder (fun a _ => a <<< 1) (fun a _ => highBit a) x y)

/-- RND Vx, nn with the byte `r` drawn from the environment (R133). -/
def State.rndWith (s : State) (r : Byte) (x : Reg) (nn : Byte) : State := s.setReg x (r &&& nn)

/-- RND Vx, nn: the draw is the free value, and the next draw is another (R133, 60 R231; log 5). -/
def execRnd (x : Reg) (nn : Byte) (s : State) : Result := .next ((s.rndWith (Config.rand8 s.draws) x nn).countDraw)

end Sys2Proof.Machine
end

