-- ==== Sys2Proof/Machine/Operands.lean ====
section
/-! DEFINITION. The operand forms of the instruction set (spec 30 R72, 45 R196): registers are read by `State.reg`,
immediates are used as they are, and the forms below compute a value from them. -/

namespace Sys2Proof.Machine

/-- `zext_16(nnn)`: an address written to PC or I (spec 30 R72). -/
def zext16 (nnn : Addr12) : Word := nnn.zeroExtend 16

/-- `zext_16(nnn) + V[0]`, not masked to 12 bits (spec 41 R108, log 10). -/
def offsetTarget (s : State) (nnn : Addr12) : Word := BitVec.ofNat 16 (nnn.toNat + (s.reg 0).toNat)

/-- The effective address of a data access: "memory at I", no displacement (spec 45 R196). -/
def dataAddr (s : State) : Nat := s.i.toNat

/-- `V[0], V[1], ..., V[x]` (spec 45 R194). -/
def regsUpTo (s : State) (x : Reg) : List Byte := s.v.toList.take (x.val + 1)

/-- `V[k] <- bs[0], V[k+1] <- bs[1], ...` (spec 45 R195). -/
def writeRegs (k : Nat) : List Byte → RegFile → RegFile
  | [], v => v
  | b :: bs, v => writeRegs (k + 1) bs (v.setIfInBounds k b)

/-- The hundreds, tens and units digits of a byte, one byte each (spec 45 R193). -/
def bcdDigits (b : Byte) : List Byte :=
  [BitVec.ofNat 8 (b.toNat / 100), BitVec.ofNat 8 (b.toNat / 10 % 10), BitVec.ofNat 8 (b.toNat % 10)]

/-- `FONT_BASE + (b & 0xF) * 5` (spec 45 R192). -/
def glyphAddr (b : Byte) : Word := BitVec.ofNat 16 (Config.fontBase + (b &&& 0x0F).toNat * Config.fontGlyphBytes)

/-- The sprite's left column, `V[x] mod 64` (spec 43 R154). -/
def spriteX (s : State) (x : Reg) : Nat := (s.reg x).toNat % 64

/-- The sprite's top row, `V[y] mod 32` (spec 43 R154). -/
def spriteY (s : State) (y : Reg) : Nat := (s.reg y).toNat % 32

end Sys2Proof.Machine
end

