-- ==== Sys2Proof/Machine/ControlFlow.lean ====
section
/-! DEFINITION. SYS, RET, JP, CALL, the register skips and JP V0 (spec 41). PC is already the instruction's address plus 2
(spec 30 R73). -/

namespace Sys2Proof.Machine

/-- SYS nnn: nothing beyond the step's fetch and advance (R100, log 3). -/
def execSys (_nnn : Addr12) (s : State) : Result := .next s

/-- RET (R101). -/
def execRet (s : State) : Result := orRaise s s.pop fun p => p.2.setPc p.1

/-- JP nnn (R102). -/
def execJp (nnn : Addr12) (s : State) : Result := .next (s.setPc (zext16 nnn))

/-- CALL nnn: pushes the advanced PC (R103). -/
def execCall (nnn : Addr12) (s : State) : Result := orRaise s (s.push s.pc) fun s' => s'.setPc (zext16 nnn)

/-- SE Vx, nn (R104). -/
def execSeImm (x : Reg) (nn : Byte) (s : State) : Result := .next (s.skipIf (s.reg x == nn))

/-- SNE Vx, nn (R105). -/
def execSneImm (x : Reg) (nn : Byte) (s : State) : Result := .next (s.skipIf (s.reg x != nn))

/-- SE Vx, Vy (R106). -/
def execSeReg (x y : Reg) (s : State) : Result := .next (s.skipIf (s.reg x == s.reg y))

/-- SNE Vx, Vy (R107). -/
def execSneReg (x y : Reg) (s : State) : Result := .next (s.skipIf (s.reg x != s.reg y))

/-- JP V0, nnn (R108). -/
def execJpV0 (nnn : Addr12) (s : State) : Result := .next (s.setPc (offsetTarget s nnn))

end Sys2Proof.Machine
end

