-- ==== Sys2Proof/Machine/Display.lean ====
section
/-! DEFINITION. CLS, DRW and the sprite engine (spec 43). -/

namespace Sys2Proof.Machine

/-- The parameter `SPRITE_BIT_ORDER` of this hardware (spec 00 R8, decision D6; log 7). -/
def spriteBitOrder : SpriteBitOrder := .msbLeft

/-- The pixel of a sprite row at column `c`, 0 on the left (R153). -/
def spriteBit (order : SpriteBitOrder) (row : Byte) (c : Nat) : Bool :=
  match order with
  | .msbLeft => row.getLsbD (7 - c)
  | .lsbLeft => row.getLsbD c

/-- One sprite pixel at column `cx`, row `cy`, with the collision so far: dropped outside the display (R155), the cell
unchanged when the pixel is 0, else the cell is inverted, and a cell turned off is a collision (R156, R157, R160). -/
def drawPixel (cx cy : Nat) (on : Bool) (a : Display × Bool) : Display × Bool :=
  if h : cx < 64 ∧ cy < 32 then
    if on then (a.1.set cy ((a.1[cy]'h.2).set cx (!(a.1[cy]'h.2)[cx]'h.1) h.1) h.2, a.2 || (a.1[cy]'h.2)[cx]'h.1) else a
  else a

/-- One sprite row: its 8 pixels from left to right (R153). -/
def drawRow (x0 cy : Nat) (row : Byte) (a : Display × Bool) : Display × Bool :=
  (List.range 8).foldl (fun a c => drawPixel (x0 + c) cy (spriteBit spriteBitOrder row c) a) a

/-- The sprite's rows from row `cy` of the display down (R152, row 0 on top). -/
def drawRows (x0 : Nat) : Nat → List Byte → Display × Bool → Display × Bool
  | _, [], a => a
  | cy, row :: rows, a => drawRows x0 (cy + 1) rows (drawRow x0 cy row a)

/-- DRW after its read: the rows are drawn, then VF is the collision flag, and DIRTY is set (R154 to R158). -/
def State.drawSprite (s : State) (x y : Reg) (rows : List Byte) : State :=
  let r := drawRows (spriteX s x) (spriteY s y) rows (s.disp, false)
  ((s.setDisp r.1).setReg Reg.vf (flagByte r.2)).setDirty true

/-- CLS (R150). -/
def execCls (s : State) : Result := .next ((s.setDisp (Vector.replicate 32 (Vector.replicate 64 false))).setDirty true)

/-- DRW Vx, Vy, n: the whole block of `n` bytes at I is read and checked first (R151, R152). -/
def execDrw (x y : Reg) (n : Fin 16) (s : State) : Result :=
  orRaise s (memRead s.mem (dataAddr s) n.val) fun rows => s.drawSprite x y rows

end Sys2Proof.Machine
end

