-- ==== Sys2Proof/Machine/IndexMemory.lean ====
section
/-! DEFINITION. The index register and the memory transfers through it (spec 45). I is never advanced (R196). -/

namespace Sys2Proof.Machine

/-- LD I, nnn (R190). -/
def execLdI (nnn : Addr12) (s : State) : Result := .next (s.setI (zext16 nnn))

/-- ADD I, Vx: modulo 65536, no flag (R191). -/
def execAddI (x : Reg) (s : State) : Result := .next (s.setI (BitVec.ofNat 16 (s.i.toNat + (s.reg x).toNat)))

/-- LD F, Vx (R192). -/
def execLdF (x : Reg) (s : State) : Result := .next (s.setI (glyphAddr (s.reg x)))

/-- LD B, Vx (R193). -/
def execLdB (x : Reg) (s : State) : Result :=
  orRaise s (memWrite s.mem (dataAddr s) (bcdDigits (s.reg x))) fun m => s.setMem m

/-- LD [I], Vx (R194). -/
def execLdMemVx (x : Reg) (s : State) : Result :=
  orRaise s (memWrite s.mem (dataAddr s) (regsUpTo s x)) fun m => s.setMem m

/-- LD Vx, [I] (R195). -/
def execLdVxMem (x : Reg) (s : State) : Result :=
  orRaise s (memRead s.mem (dataAddr s) (x.val + 1)) fun bs => s.setV (writeRegs 0 bs s.v)

end Sys2Proof.Machine
end

