-- ==== Sys2Proof/Machine/InputTimers.lean ====
section
/-! DEFINITION. The keypad instructions and the timer moves (spec 44). -/

namespace Sys2Proof.Machine

/-- SKP Vx (R170). -/
def execSkp (x : Reg) (s : State) : Result := orRaise s (s.key (s.reg x).toNat) fun down => s.skipIf down

/-- SKNP Vx (R171). -/
def execSknp (x : Reg) (s : State) : Result := orRaise s (s.key (s.reg x).toNat) fun down => s.skipIf (!down)

/-- LD Vx, K: PC rewinds while no key is pressed, so that the same word executes again (R172). -/
def execLdVxK (x : Reg) (s : State) : Result :=
  match s.lowestKey with
  | none => .next s.rewind
  | some k => .next (s.setReg x (BitVec.ofNat 8 k.val))

/-- LD Vx, DT (R173). -/
def execLdVxDt (x : Reg) (s : State) : Result := .next (s.setReg x s.dt)

/-- LD DT, Vx (R174). -/
def execLdDtVx (x : Reg) (s : State) : Result := .next (s.setDt (s.reg x))

/-- LD ST, Vx (R175). -/
def execLdStVx (x : Reg) (s : State) : Result := .next (s.setSt (s.reg x))

end Sys2Proof.Machine
end

