-- ==== Sys2Proof/Machine/Step.lean ====
section
/-! DEFINITION. One call of the single-step entry point (spec 30 R73). -/

namespace Sys2Proof.Machine

/-- `Step()` (spec 30 R73): nothing while faulted (60 R235); fetch, advance, decode, execute; a word with no row is a
no-op (30 R75). -/
def step (s : State) : Host.Outcome State Fault Refusal :=
  match s.fault with
  | some _ => .next s
  | none =>
    match fetchWord s.mem s.pc.toNat with
    | .error f => .next (s.raiseFetch f)
    | .ok w =>
      match decode w with
      | .instr i => exec i s.advance
      | .reject _ => .next s.advance

/-- `s` with the table word `w` of `nbits` bits stored where `step` fetches next, at PC. It stands for the host's program
load (spec 70 R253), which places bytes and sets no register (log 20). -/
def State.withFetchWord (s : State) (nbits w : Nat) : State :=
  s.setMem (storeWord s.mem s.pc.toNat (tableWordBytes nbits w))

end Sys2Proof.Machine
end

