-- ==== Sys2Proof/Machine/Transactions.lean ====
section
/-! DEFINITION. The CORE's transaction interface (spec 60 R229): the effect of every host transaction on the state, and
what it reports back. Transactions are atomic and serialized (spec 60 R230): a session is a list of them. -/

namespace Sys2Proof.Machine

/-- The transactions of spec 60 R229. A load carries the image, or `none` when the host could not read it (70 R255). -/
inductive Transaction where
  | step
  | tick
  | press (k : Nat)
  | release (k : Nat)
  | load (image : Option (List Byte))
  | reset
  | display
  | clearDirty
  | soundTimer
  | fault
  deriving DecidableEq, Repr

/-- The numeric cause codes 1 to 7 (spec 60 R214). -/
def Fault.code : Fault → Nat
  | .bounds .fetch _ _ => 1
  | .bounds .read _ _ => 2
  | .bounds .write _ _ => 3
  | .bounds .keypad _ _ => 4
  | .stack .overflow => 5
  | .stack .underflow => 6
  | .hostContract _ _ => 7

/-- The code of the fault record, 0 for no fault (spec 60 R214). -/
def State.faultCode (s : State) : Nat :=
  match s.fault with
  | none => 0
  | some r => r.value.code

/-- A down-counting timer's tick, floored at 0 (spec 60 R223). -/
def tickTimer (t : Byte) : Byte := BitVec.ofNat 8 (t.toNat - 1)

/-- `tick()` (spec 60 R223); nothing while faulted (R235). -/
def State.tick (s : State) : State :=
  match s.fault with
  | some _ => s
  | none => (s.setDt (tickTimer s.dt)).setSt (tickTimer s.st)

/-- `press(k)` and `release(k)` (spec 60 R226): the key's level is written, also while faulted (R235); an index above 15
changes no key and raises `HostContractFault`. -/
def State.keyEvent (s : State) (e : KeyEvent) (k : Nat) : State :=
  if h : k < 16 then s.setKey ⟨k, h⟩ (e == .press) else s.raiseHost (.hostContract e k)

/-- `load(bytes)` (spec 70 R253 to R255): refused while faulted, when the image cannot be read, and when it does not fit;
a refused load changes nothing and does not set FAULT. -/
def State.load (s : State) (image : Option (List Byte)) : Result :=
  match s.fault, image with
  | some _, _ => .refused .loadWhileFaulted
  | none, none => .refused .imageUnreadable
  | none, some bytes =>
    match memWrite s.mem Config.progOrigin bytes with
    | .ok m => .next (s.setMem m)
    | .error _ => .refused (.imageTooLong bytes.length)

/-- `reset()` (spec 70 R250, R251): the state of 10 R38. The environment's random source is no CORE state (10 R36), so its
draws go on (log 5). -/
def State.resetCore (s : State) : State := { State.reset with draws := s.draws }

/-- The effect of a transaction (spec 60 R229). -/
def transact (t : Transaction) (s : State) : Result :=
  match t with
  | .step => Sys2Proof.Machine.step s
  | .tick => .next s.tick
  | .press k => .next (s.keyEvent .press k)
  | .release k => .next (s.keyEvent .release k)
  | .load image => s.load image
  | .reset => .next s.resetCore
  | .display => .next s
  | .clearDirty => .next (s.setDirty false)
  | .soundTimer => .next s
  | .fault => .next s

/-- The state after a transaction: a refused one changes nothing (spec 70 R254, R255, 60 R235). -/
def State.after (s : State) (t : Transaction) : State :=
  match transact t s with
  | .next s' => s'
  | .fault _ => s
  | .refused _ => s

/-- A session: the host's transactions one after the other (spec 60 R230). -/
def State.afterAll (s : State) (ts : List Transaction) : State := ts.foldl State.after s

/-- What a transaction reports to the host, the "out" column of spec 60 R229. -/
inductive Reply where
  | none
  | fault (r : FaultRecord)
  | error (r : Refusal)
  | display (cells : List Bool) (dirty : Bool)
  | soundTimer (st : Byte)
  | faultRecord (r : Option FaultRecord)
  deriving DecidableEq, Repr

/-- The fault a step raised: the record after it, when there was none before it. -/
def State.raisedFault (s s' : State) : Reply :=
  match s.fault, s'.fault with
  | .none, some r => .fault r
  | _, _ => .none

/-- The display row-major: cell (x, y) is element y * 64 + x of 2048 (spec 10 R29, 60 R227). -/
def State.displayCells (s : State) : List Bool := s.disp.toList.flatMap Vector.toList

/-- The reply to a transaction (spec 60 R229). -/
def reply (t : Transaction) (s : State) : Reply :=
  match t with
  | .step => s.raisedFault (s.after .step)
  | .tick => .none
  | .press k => if k < 16 then .none else .fault ⟨.hostContract .press k, none⟩
  | .release k => if k < 16 then .none else .fault ⟨.hostContract .release k, none⟩
  | .load image =>
    match s.load image with
    | .refused r => .error r
    | .next _ => .none
    | .fault _ => .none
  | .reset => .none
  | .display => .display s.displayCells s.dirty
  | .clearDirty => .none
  | .soundTimer => .soundTimer s.st
  | .fault => .faultRecord s.fault

/-- The reference host's frame, which binds no rule of the CORE: a batch of steps, one tick, a look at the display
(spec 60 R232). -/
def referenceFrame : List Transaction := List.replicate Config.stepsPerFrame .step ++ [.tick, .display]

end Sys2Proof.Machine
end

