-- ==== Sys2Proof/Safety.lean ====
section
/-! DEFINITION. What counts as a safe run (spec 70 R263), and the invariants that every transaction keeps. -/

namespace Sys2Proof.Machine

/-- Where a run stands (spec 70 R263). -/
inductive RunStatus where
  | endedBadly
  | endedWell
  | waitingForKey
  | running
  deriving DecidableEq, Repr

/-- The instruction the next step will execute, if the fetch succeeds and the word has a row. -/
def State.nextInstr (s : State) : Option Instr :=
  match fetchWord s.mem s.pc.toNat with
  | .error _ => none
  | .ok w =>
    match decode w with
    | .instr i => some i
    | .reject _ => none

/-- The status of a run: ended badly when FAULT is set, ended well at a jump to itself, waiting at an FX0A with no key
pressed, and running in every other state (spec 70 R263). -/
def State.status (s : State) : RunStatus :=
  match s.fault with
  | some _ => .endedBadly
  | none =>
    match s.nextInstr with
    | some (.jp nnn) => if zext16 nnn = s.pc then .endedWell else .running
    | some (.ldVxK _) => if s.lowestKey = none then .waitingForKey else .running
    | _ => .running

/-- A session never ended badly: no transaction of it left FAULT set. -/
def Safe (s : State) (ts : List Transaction) : Prop := ∀ n, (s.afterAll (ts.take n)).fault = none

/-- The memory keeps its canonical form. -/
def State.MemCanonical (s : State) : Prop := s.mem.wf = true

/-- The largest PC a step can leave is BNNN's 0xFFF + 0xFF (spec 41 R108), and every return address was a PC after a
fetch inside memory, so no PC arithmetic ever wraps (decision D10; log 19). -/
def State.PcBounded (s : State) : Prop := s.pc.toNat ≤ 0x10FE ∧ ∀ k : Fin 16, s.stack[k].toNat ≤ 0x1000

/-- The invariant of the machine. -/
def State.Inv (s : State) : Prop := s.MemCanonical ∧ s.PcBounded

end Sys2Proof.Machine
end

