-- ==== Sys2Proof/Certificates/Slice0/Obligations.lean ====
section
/-! DEFINITION. What is to be proved of the model. Each statement names the rule of spec/ it formalises. Arithmetic is said
with natural numbers, as the rules write it, and not with the operations the model computes with. -/

namespace Sys2Proof.Spec

open Sys2Proof.Machine

/-- What an operation may change: the registers listed, the pieces marked true, the call-stack slots and keys listed, and
the bytes of memory from `mem.1` on, `mem.2` of them. -/
structure MayChange where
  regs : List Reg := []
  i : Bool := false
  pc : Bool := false
  slots : List Nat := []
  sp : Bool := false
  dt : Bool := false
  st : Bool := false
  disp : Bool := false
  dirty : Bool := false
  keys : List Nat := []
  mem : Nat × Nat := (0, 0)
  fault : Bool := false
  draws : Bool := false

/-- Everything else is the same after as before. -/
structure Frame (c : MayChange) (s t : State) : Prop where
  regs : ∀ r : Reg, r ∉ c.regs → t.reg r = s.reg r
  i : c.i = false → t.i = s.i
  pc : c.pc = false → t.pc = s.pc
  slots : ∀ k : Fin 16, k.val ∉ c.slots → t.stack[k] = s.stack[k]
  sp : c.sp = false → t.sp = s.sp
  dt : c.dt = false → t.dt = s.dt
  st : c.st = false → t.st = s.st
  disp : c.disp = false → ∀ (y : Fin 32) (x : Fin 64), t.disp[y][x] = s.disp[y][x]
  dirty : c.dirty = false → t.dirty = s.dirty
  keys : ∀ k : Fin 16, k.val ∉ c.keys → t.keys[k] = s.keys[k]
  mem : ∀ a, ¬(c.mem.1 ≤ a ∧ a < c.mem.1 + c.mem.2) → t.mem.read a = s.mem.read a
  fault : c.fault = false → t.fault = s.fault
  draws : c.draws = false → t.draws = s.draws

/-- `t` is `s` after a fault with the value `f` and nothing else. A raise writes no state (spec 00 R13); that the fault is
recorded in FAULT, in a next state that keeps all the rest, is decision D14 (log 13). -/
def FaultsWith (f : Fault) (s t : State) : Prop :=
  (∃ r, t.fault = some r ∧ r.value = f) ∧ Frame { fault := true } s t

/-- The word at PC, the byte at the lower address being its high byte. -/
def wordAtPc (s : State) : Word := wordOfBytes (s.mem.read s.pc.toNat) (s.mem.read (s.pc.toNat + 1))

/-- VF. -/
def vf : Reg := 15

/-- The registers V0 to Vx. -/
def upTo (x : Reg) : List Reg := (List.finRange 16).filter fun r => decide (r ≤ x)

/-- The destination registers of an instruction, VF among them where it is written as a flag (spec 10 R21, R22). -/
def destRegs : Instr → List Reg
  | .ldImm x _ => [x]
  | .addImm x _ => [x]
  | .ldReg x _ => [x]
  | .orReg x _ => [x]
  | .andReg x _ => [x]
  | .xorReg x _ => [x]
  | .addReg x _ => [x, vf]
  | .sub x _ => [x, vf]
  | .shr x _ => [x, vf]
  | .subn x _ => [x, vf]
  | .shl x _ => [x, vf]
  | .rnd x _ => [x]
  | .drw _ _ _ => [vf]
  | .ldVxDt x => [x]
  | .ldVxK x => [x]
  | .ldVxMem x => upTo x
  | _ => []

/-- The six instructions that skip on a condition. -/
def isSkip : Instr → Bool
  | .seImm _ _ => true
  | .sneImm _ _ => true
  | .seReg _ _ => true
  | .sneReg _ _ => true
  | .skp _ => true
  | .sknp _ => true
  | _ => false

/-- The four instructions that write PC with a target. -/
def isTransfer : Instr → Bool
  | .jp _ => true
  | .call _ => true
  | .ret => true
  | .jpV0 _ => true
  | _ => false

/-- The fault an instruction raises in a state, as the table of spec 60 R210 lists them. -/
def faultOf (i : Instr) (s : State) : Option Fault :=
  match i with
  | .ret => if s.sp.val = 0 then some (.stack .underflow) else none
  | .call _ => if s.sp.val = 16 then some (.stack .overflow) else none
  | .drw _ _ n => if s.i.toNat + n.val > 4096 then some (.bounds .read s.i.toNat n.val) else none
  | .ldVxMem x => if s.i.toNat + (x.val + 1) > 4096 then some (.bounds .read s.i.toNat (x.val + 1)) else none
  | .ldB _ => if s.i.toNat + 3 > 4096 then some (.bounds .write s.i.toNat 3) else none
  | .ldMemVx x => if s.i.toNat + (x.val + 1) > 4096 then some (.bounds .write s.i.toNat (x.val + 1)) else none
  | .skp x => if (s.reg x).toNat > 15 then some (.bounds .keypad (s.reg x).toNat 1) else none
  | .sknp x => if (s.reg x).toNat > 15 then some (.bounds .keypad (s.reg x).toNat 1) else none
  | _ => none

/-- The fault record a step of an unfaulted state leaves (spec 60 R210, R215): the fetch first, then the instruction. -/
def recordAfterStep (s : State) : Option FaultRecord :=
  if s.pc.toNat + 2 > 4096 then some ⟨.bounds .fetch s.pc.toNat 2, some s.pc⟩
  else
    match decode (wordAtPc s) with
    | .instr i => (faultOf i s).map fun f => ⟨f, some s.pc⟩
    | .reject _ => none

/-- The sprite of a DRW has a 1 on the display's cell at column cx, row cy: some pixel c of some row r falls there (spec 43
R152 to R155). -/
def spriteHas (s : State) (x y : Reg) (n : Fin 16) (cx : Fin 64) (cy : Fin 32) : Prop :=
  ∃ c r : Nat, c < 8 ∧ r < n.val ∧ cx.val = (s.reg x).toNat % 64 + c ∧ cy.val = (s.reg y).toNat % 32 + r ∧
    (s.mem.read (s.i.toNat + r)).getLsbD (7 - c) = true

/-- The font as spec 20 R61 prints it, glyph by glyph. -/
def font : List Nat :=
  [0xF0, 0x90, 0x90, 0x90, 0xF0, 0x20, 0x60, 0x20, 0x20, 0x70, 0xF0, 0x10, 0xF0, 0x80, 0xF0, 0xF0, 0x10, 0xF0, 0x10, 0xF0] ++
  [0x90, 0x90, 0xF0, 0x10, 0x10, 0xF0, 0x80, 0xF0, 0x10, 0xF0, 0xF0, 0x80, 0xF0, 0x90, 0xF0, 0xF0, 0x10, 0x20, 0x40, 0x40] ++
  [0xF0, 0x90, 0xF0, 0x90, 0xF0, 0xF0, 0x90, 0xF0, 0x10, 0xF0, 0xF0, 0x90, 0xF0, 0x90, 0x90, 0xE0, 0x90, 0xE0, 0x90, 0xE0] ++
  [0xF0, 0x80, 0x80, 0x80, 0xF0, 0xE0, 0x90, 0x90, 0x90, 0xE0, 0xF0, 0x80, 0xF0, 0x80, 0xF0, 0xF0, 0x80, 0xF0, 0x80, 0x80]

/-- The reset table of spec 10 R38. -/
structure AtReset (s : State) : Prop where
  regs : ∀ r : Reg, s.reg r = 0
  i : s.i = 0
  pc : s.pc = 0x200
  sp : s.sp = 0
  slots : ∀ k : Fin 16, s.stack[k] = 0
  timers : s.dt = 0 ∧ s.st = 0
  keys : ∀ k : Fin 16, s.keys[k] = false
  disp : ∀ (y : Fin 32) (x : Fin 64), s.disp[y][x] = false
  dirty : s.dirty = false
  font : ∀ a, a < 80 → (s.mem.read a).toNat = Spec.font.getD a 0
  zeros : ∀ a, 80 ≤ a → a < 4096 → s.mem.read a = 0
  fault : s.fault = none

end Sys2Proof.Spec

open Sys2Proof Sys2Proof.Machine Sys2Proof.Spec

/-! ### Memory primitives, fetch and decode -/

/-- R54: FetchWord, its big-endian value and its bounds fault, at every address, odd ones included. -/
def Obligations.FetchWordIsBigEndianAndBoundsChecked : Prop :=
  ∀ (m : Memory) (a : Nat),
    (a + 2 ≤ 4096 → ∃ w, fetchWord m a = .ok w ∧ w.toNat = (m.read a).toNat * 256 + (m.read (a + 1)).toNat) ∧
    (4096 < a + 2 → fetchWord m a = .error (.bounds .fetch a 2))

/-- R52: MemRead returns the n bytes from addr on, or its bounds fault on the exact sum. The case n = 0 is the spec's own
decision D11 (log 11). -/
def Obligations.MemReadReturnsTheBlockOrFaults : Prop :=
  ∀ (m : Memory) (a n : Nat),
    (a + n ≤ 4096 → ∃ bs, memRead m a n = .ok bs ∧ bs.length = n ∧ ∀ k, k < n → bs[k]? = some (m.read (a + k))) ∧
    (4096 < a + n → memRead m a n = .error (.bounds .read a n))

/-- R53: MemWrite writes exactly its bytes, or faults before any. That a faulting write changes no byte is the spec's own
decision D13 (log 18). -/
def Obligations.MemWriteStoresTheBlockOrFaults : Prop :=
  ∀ (m : Memory) (a : Nat) (bs : List Byte), m.wf = true →
    (a + bs.length ≤ 4096 → ∃ m', memWrite m a bs = .ok m' ∧ m'.wf = true ∧
      (∀ k, k < bs.length → some (m'.read (a + k)) = bs[k]?) ∧
      ∀ c, ¬(a ≤ c ∧ c < a + bs.length) → m'.read c = m.read c) ∧
    (4096 < a + bs.length → memWrite m a bs = .error (.bounds .write a bs.length))

/-- The canonical form of memory does its work: two canonical memories that read alike are the same data (the model's own
form of MEM, spec 10 R32). -/
def Obligations.CanonicalMemoriesThatReadAlikeAreEqual : Prop :=
  ∀ m m' : Memory, m.wf = true → m'.wf = true → (∀ a, m.read a = m'.read a) → m = m'

/-- R74, R76 (bit patterns and strict matching: the spec's own decisions D1, D3; log 1, log 2): the decoder answers an
instruction exactly for the words some row of the table matches, and then it answers the one row that matches. -/
def Obligations.DecodeFollowsTheOpcodeTable : Prop :=
  ∀ w : Word,
    ((∃ i, decode w = .instr i) ↔ ∃ r ∈ opcodeTable, r.matches w = true) ∧
    ∀ i, decode w = .instr i →
      i.row ∈ opcodeTable ∧ i.row.matches w = true ∧ ∀ r ∈ opcodeTable, r.matches w = true → r = i.row

/-- R74, R78 (decision D1; log 1): the table has 35 rows and no word matches two of them. -/
def Obligations.OpcodeTableHasThirtyFiveDisjointRows : Prop :=
  opcodeTable.length = 35 ∧
    ∀ w : Word, opcodeTable.Pairwise fun r r' => ¬(r.matches w = true ∧ r'.matches w = true)

/-- R75: a word that matches no row of the table is a no-op: PC advances by 2 and nothing else changes. -/
def Obligations.UnrecognizedWordIsANoOp : Prop :=
  ∀ s : State, s.fault = none → s.pc.toNat + 2 ≤ 4096 → (∀ r ∈ opcodeTable, r.matches (wordAtPc s) = false) →
    ∃ t, step s = .next t ∧ t.pc = s.pc + 2 ∧ Frame { pc := true } s t

/-- Decode and encode agree (patterns: decision D1, log 1): every well-formed instruction, with every operand at every
value, is read back from its word and from its two bytes. -/
def Obligations.DecodeOfEncodeIsTheInstruction : Prop :=
  ∀ i : Instr, i.WellFormed →
    decode (encode i) = .instr i ∧ ∀ rest, decodeBytes (encodeBytes i ++ rest) = (.instr i, rest)

/-- Encode and decode agree the other way (decisions D1, D3; log 1, log 2): a word the decoder reads is the word the encoder writes,
so each word has one meaning and no bit of it is dropped. -/
def Obligations.EncodeOfDecodeIsTheWord : Prop :=
  ∀ (w : Word) (i : Instr), decode w = .instr i → i.WellFormed ∧ encode i = w

/-- One word of each family, written from spec 30 section 4 and spec 95 (decision D1, log 1). That 0x5121 is unrecognized
is decision D3 (log 2). -/
def Obligations.SampleWordsDecodeAsTheSpecSays : Prop :=
  decode 0x00E0 = .instr .cls ∧ decode 0x2300 = .instr (.call 0x300) ∧ decode 0x834E = .instr (.shl 3 4) ∧
    decode 0xD125 = .instr (.drw 1 2 5) ∧ decode 0xE49E = .instr (.skp 4) ∧ decode 0xF265 = .instr (.ldVxMem 2) ∧
    decode 0x00E1 = .instr (.sys 0x0E1) ∧ decode 0x5121 = .reject (.group5 0x5121)

/-! ### The step -/

/-- R73: the step's sequence. Nothing while faulted; a fetch fault leaves PC and executes nothing; a decoded instruction
executes with PC already advanced; a word with no row ends the step after the advance. The form of a fault, and the rest of
a faulted CORE, are decision D14 (log 13). -/
def Obligations.StepRunsTheDecodedInstruction : Prop :=
  ∀ s : State,
    (s.fault ≠ none → step s = .next s) ∧
    (s.fault = none → 4096 < s.pc.toNat + 2 → ∃ t, step s = .next t ∧ FaultsWith (.bounds .fetch s.pc.toNat 2) s t) ∧
    (∀ i, s.fault = none → s.pc.toNat + 2 ≤ 4096 → decode (wordAtPc s) = .instr i →
      step s = exec i { s with pc := s.pc + 2 }) ∧
    (∀ r, s.fault = none → s.pc.toNat + 2 ≤ 4096 → decode (wordAtPc s) = .reject r →
      step s = .next { s with pc := s.pc + 2 })

/-- The CORE never stops by itself: every step of every state answers a next state (no encoding traps, R79; a fault is a
recorded state and not a halt, R216, R233; there is no trap, R218). That a fault is a next state is log 13. -/
def Obligations.EveryStepAnswersANextState : Prop := ∀ s : State, ∃ t, step s = .next t

/-- R210, R211, R212, R215: a step of an unfaulted state leaves exactly the fault record the table gives, the fetch's
fault before any other, and no record in every other case. The record is decisions D14, D15 (log 13); the
conditions of the key skips, of clipped rows and of empty reads are decisions D8, D12, D11 (log 9, 17, 11). -/
def Obligations.StepFaultsExactlyWhereTheTableSays : Prop :=
  ∀ s : State, s.fault = none → ∃ t, step s = .next t ∧ t.fault = recordAfterStep s

/-- The invariant: memory stays canonical, PC never exceeds 0x10FE and return addresses never exceed 0x1000, so no PC
arithmetic wraps (decision D10, whose own bound 0x1002 R108 contradicts; log 19). -/
def Obligations.StepKeepsTheInvariant : Prop := ∀ s t : State, s.Inv → step s = .next t → t.Inv

/-- Every host transaction keeps the invariant (R229, R230: the rules hold for every sequence of transactions). -/
def Obligations.EveryTransactionKeepsTheInvariant : Prop :=
  ∀ (tr : Transaction) (s t : State), s.Inv → transact tr s = .next t → t.Inv

/-- The reset state meets the invariant. -/
def Obligations.ResetMeetsTheInvariant : Prop := State.reset.Inv

/-- R24: every change to PC is the advance, a taken skip's extra advance, FX0A's rewind while no key is pressed, or a write
of JP, CALL, RET or BNNN. PC arithmetic modulo 65536 is decision D10 (log 19). -/
def Obligations.PcChangesOnlyAsListed : Prop :=
  ∀ (i : Instr) (s t : State), exec i s = .next t →
    t.pc = s.pc ∨ (isSkip i = true ∧ t.pc = s.pc + 2) ∨
      ((∃ x, i = .ldVxK x) ∧ (∀ k : Fin 16, s.keys[k] = false) ∧ t.pc = s.pc - 2) ∨ isTransfer i = true

/-- R21, R22: an instruction writes no register but its destinations; VF is written by the six flag instructions and where
it is the destination, and by nothing else. -/
def Obligations.RegistersChangeOnlyAsDestinations : Prop :=
  ∀ (i : Instr) (s t : State) (r : Reg), exec i s = .next t → r ∉ destRegs i → t.reg r = s.reg r

/-- R22: the five ALU flag instructions leave 0 or 1 in VF on every execution, and DRW does on every one that does not
fault. With VF as the destination of SUB, SUBN, SHR or SHL this rests on decision D5, that VF is written last (log 6). -/
def Obligations.FlagInstructionsLeaveAFlagInVf : Prop :=
  ∀ (s t : State) (x y : Reg) (n : Fin 16) (i : Instr),
    i = .addReg x y ∨ i = .sub x y ∨ i = .subn x y ∨ i = .shr x y ∨ i = .shl x y ∨
      (i = .drw x y n ∧ s.i.toNat + n.val ≤ 4096) →
    exec i s = .next t → t.reg vf = 0 ∨ t.reg vf = 1

/-- Each other piece of state has only its writers: I by ANNN, FX1E, FX29 (R23); SP by CALL and RET, the
stack slots by CALL alone (R25; that RET leaves the slot it pops is decision D29, log 14); DT
by FX15, ST by FX18 (R27, R28); the display and DIRTY by CLS and DXYN (R29, R30); memory by FX33 and FX55 (R51); the keys by
no instruction (R31). -/
def Obligations.EachPieceOfStateHasOnlyItsWriters : Prop :=
  ∀ (i : Instr) (s t : State), exec i s = .next t →
    (t.i = s.i ∨ (∃ nnn, i = .ldI nnn) ∨ (∃ x, i = .addI x) ∨ ∃ x, i = .ldF x) ∧
    (t.stack = s.stack ∨ ∃ nnn, i = .call nnn) ∧
    (t.sp = s.sp ∨ (∃ nnn, i = .call nnn) ∨ i = .ret) ∧
    (t.dt = s.dt ∨ ∃ x, i = .ldDtVx x) ∧
    (t.st = s.st ∨ ∃ x, i = .ldStVx x) ∧
    (t.disp = s.disp ∨ i = .cls ∨ ∃ x y n, i = .drw x y n) ∧
    (t.dirty = s.dirty ∨ i = .cls ∨ ∃ x y n, i = .drw x y n) ∧
    (t.mem = s.mem ∨ (∃ x, i = .ldB x) ∨ ∃ x, i = .ldMemVx x) ∧
    t.keys = s.keys

/-- R31, R228, R235: what only the host may do. No step writes a key, clears DIRTY, or clears or replaces a fault. That a
fault record stays under a step is decision D14 (log 13). -/
def Obligations.NoStepDoesTheHostsPart : Prop :=
  ∀ s t : State, step s = .next t →
    t.keys = s.keys ∧ (s.dirty = true → t.dirty = true) ∧ (s.fault ≠ none → t.fault = s.fault)

/-! ### Control flow (spec 41) -/

/-- R100, decision D4 (log 3): SYS changes nothing beyond the step's advance. -/
def Obligations.SysChangesNothing : Prop :=
  ∀ (s : State) (nnn : Addr12), ∃ t, exec (.sys nnn) s = .next t ∧ Frame {} s t

/-- R101: RET pops the return address and leaves the slot (decision D29, log 14), or faults at SP = 0 and writes nothing
(the fault's form: decision D14, log 13). -/
def Obligations.RetPopsTheReturnAddress : Prop :=
  ∀ s : State,
    (∀ k : Fin 16, s.sp.val = k.val + 1 →
      ∃ t, exec .ret s = .next t ∧ t.sp.val = k.val ∧ t.pc = s.stack[k] ∧ Frame { pc := true, sp := true } s t) ∧
    (s.sp.val = 0 → s.fault = none → ∃ t, exec .ret s = .next t ∧ FaultsWith (.stack .underflow) s t)

/-- R102: JP. Bit pattern: D1, in DecodeFollowsTheOpcodeTable. -/
def Obligations.JpSetsPcToItsAddress : Prop :=
  ∀ (s : State) (nnn : Addr12), ∃ t, exec (.jp nnn) s = .next t ∧ t.pc.toNat = nnn.toNat ∧ Frame { pc := true } s t

/-- R103: CALL pushes the advanced PC and jumps, or faults at SP = 16 and writes nothing (the fault's form: decision D14,
log 13). -/
def Obligations.CallPushesTheReturnAddress : Prop :=
  ∀ (s : State) (nnn : Addr12),
    (∀ k : Fin 16, s.sp.val = k.val →
      ∃ t, exec (.call nnn) s = .next t ∧ t.stack[k] = s.pc ∧ t.sp.val = k.val + 1 ∧ t.pc.toNat = nnn.toNat ∧
        Frame { pc := true, sp := true, slots := [k.val] } s t) ∧
    (s.sp.val = 16 → s.fault = none → ∃ t, exec (.call nnn) s = .next t ∧ FaultsWith (.stack .overflow) s t)

/-- R104, R105: SE and SNE with an immediate; PC is modulo 65536. Bit patterns: D1, in DecodeFollowsTheOpcodeTable. -/
def Obligations.ImmediateSkipsFollowTheComparison : Prop :=
  ∀ (s : State) (x : Reg) (nn : Byte),
    (∃ t, exec (.seImm x nn) s = .next t ∧
      t.pc.toNat = (if s.reg x = nn then (s.pc.toNat + 2) % 65536 else s.pc.toNat) ∧ Frame { pc := true } s t) ∧
    (∃ t, exec (.sneImm x nn) s = .next t ∧
      t.pc.toNat = (if s.reg x = nn then s.pc.toNat else (s.pc.toNat + 2) % 65536) ∧ Frame { pc := true } s t)

/-- R106, R107: SE and SNE of two registers. Bit patterns: D1, in DecodeFollowsTheOpcodeTable. -/
def Obligations.RegisterSkipsFollowTheComparison : Prop :=
  ∀ (s : State) (x y : Reg),
    (∃ t, exec (.seReg x y) s = .next t ∧
      t.pc.toNat = (if s.reg x = s.reg y then (s.pc.toNat + 2) % 65536 else s.pc.toNat) ∧ Frame { pc := true } s t) ∧
    (∃ t, exec (.sneReg x y) s = .next t ∧
      t.pc.toNat = (if s.reg x = s.reg y then s.pc.toNat else (s.pc.toNat + 2) % 65536) ∧ Frame { pc := true } s t)

/-- R108: JP V0; that the sum is not masked to 12 bits is decision D9 (log 10). -/
def Obligations.JpV0AddsV0Unmasked : Prop :=
  ∀ (s : State) (nnn : Addr12),
    ∃ t, exec (.jpV0 nnn) s = .next t ∧ t.pc.toNat = nnn.toNat + (s.reg 0).toNat ∧ Frame { pc := true } s t

/-! ### Arithmetic and logic (spec 42) -/

/-- R122, R123: load and add immediate, with no flag. Bit patterns: D1, in DecodeFollowsTheOpcodeTable. -/
def Obligations.ImmediateLoadAndAddWriteOneRegister : Prop :=
  ∀ (s : State) (x : Reg) (nn : Byte),
    (∃ t, exec (.ldImm x nn) s = .next t ∧ t.reg x = nn ∧ Frame { regs := [x] } s t) ∧
    (∃ t, exec (.addImm x nn) s = .next t ∧ (t.reg x).toNat = ((s.reg x).toNat + nn.toNat) % 256 ∧
      Frame { regs := [x] } s t)

/-- R124 to R127: copy, OR, AND, XOR bit by bit, with no flag. Bit patterns: D1, in DecodeFollowsTheOpcodeTable. -/
def Obligations.CopyAndLogicWriteOneRegister : Prop :=
  ∀ (s : State) (x y : Reg),
    (∃ t, exec (.ldReg x y) s = .next t ∧ t.reg x = s.reg y ∧ Frame { regs := [x] } s t) ∧
    (∃ t, exec (.orReg x y) s = .next t ∧
      (∀ k, k < 8 → (t.reg x).getLsbD k = ((s.reg x).getLsbD k || (s.reg y).getLsbD k)) ∧ Frame { regs := [x] } s t) ∧
    (∃ t, exec (.andReg x y) s = .next t ∧
      (∀ k, k < 8 → (t.reg x).getLsbD k = ((s.reg x).getLsbD k && (s.reg y).getLsbD k)) ∧ Frame { regs := [x] } s t) ∧
    (∃ t, exec (.xorReg x y) s = .next t ∧
      (∀ k, k < 8 → (t.reg x).getLsbD k = ((s.reg x).getLsbD k ^^ (s.reg y).getLsbD k)) ∧ Frame { regs := [x] } s t)

/-- R128: add with carry; VF is written last, so it holds the carry also when it is the destination. Bit pattern: D1, in
DecodeFollowsTheOpcodeTable. -/
def Obligations.AddWritesSumThenCarry : Prop :=
  ∀ (s : State) (x y : Reg),
    ∃ t, exec (.addReg x y) s = .next t ∧
      (x ≠ vf → (t.reg x).toNat = ((s.reg x).toNat + (s.reg y).toNat) % 256) ∧
      (t.reg vf).toNat = (if (s.reg x).toNat + (s.reg y).toNat > 255 then 1 else 0) ∧ Frame { regs := [x, vf] } s t

/-- R129, R131: the two subtractions; that VF is written last is decision D5, the parameter SHIFT_VF_ORDER (log 6). -/
def Obligations.SubtractionsWriteDifferenceThenNotBorrow : Prop :=
  ∀ (s : State) (x y : Reg),
    (∃ t, exec (.sub x y) s = .next t ∧
      (x ≠ vf → (t.reg x).toNat = ((s.reg x).toNat + 256 - (s.reg y).toNat) % 256) ∧
      (t.reg vf).toNat = (if (s.reg x).toNat ≥ (s.reg y).toNat then 1 else 0) ∧ Frame { regs := [x, vf] } s t) ∧
    (∃ t, exec (.subn x y) s = .next t ∧
      (x ≠ vf → (t.reg x).toNat = ((s.reg y).toNat + 256 - (s.reg x).toNat) % 256) ∧
      (t.reg vf).toNat = (if (s.reg y).toNat ≥ (s.reg x).toNat then 1 else 0) ∧ Frame { regs := [x, vf] } s t)

/-- R130, R132: the two shifts, of V[x] alone; that VF is written last is decision D5, the parameter SHIFT_VF_ORDER
(log 6). -/
def Obligations.ShiftsWriteResultThenBitShiftedOut : Prop :=
  ∀ (s : State) (x y : Reg),
    (∃ t, exec (.shr x y) s = .next t ∧ (x ≠ vf → (t.reg x).toNat = (s.reg x).toNat / 2) ∧
      (t.reg vf).toNat = (s.reg x).toNat % 2 ∧ Frame { regs := [x, vf] } s t) ∧
    (∃ t, exec (.shl x y) s = .next t ∧ (x ≠ vf → (t.reg x).toNat = (s.reg x).toNat * 2 % 256) ∧
      (t.reg vf).toNat = (s.reg x).toNat / 128 ∧ Frame { regs := [x, vf] } s t)

/-- R133, R231, decision D19 (log 5): RND completes with some byte r of the environment under the mask; each bit whose mask
bit is 0 is 0; and the byte is the free value, a new one for every draw. -/
def Obligations.RndMasksAFreeByte : Prop :=
  ∀ (s : State) (x : Reg) (nn : Byte),
    ∃ t, exec (.rnd x nn) s = .next t ∧ t.draws = s.draws + 1 ∧
      (∀ k, k < 8 → (t.reg x).getLsbD k = ((Config.rand8 s.draws).getLsbD k && nn.getLsbD k)) ∧
      Frame { regs := [x], draws := true } s t

/-! ### Display (spec 43) -/

/-- R150: CLS. Bit pattern: D1, in DecodeFollowsTheOpcodeTable. -/
def Obligations.ClsClearsTheDisplay : Prop :=
  ∀ s : State, ∃ t, exec .cls s = .next t ∧ (∀ (y : Fin 32) (x : Fin 64), t.disp[y][x] = false) ∧ t.dirty = true ∧
    Frame { disp := true, dirty := true } s t

/-- R151 to R160: a DRW whose block lies in memory inverts exactly the cells its clipped sprite has a 1 on, sets VF exactly
when one of them was lit, and sets DIRTY. The pixel order is decision D6, SPRITE_BIT_ORDER (log 7). -/
def Obligations.DrwXorsTheClippedSprite : Prop :=
  ∀ (s : State) (x y : Reg) (n : Fin 16), s.i.toNat + n.val ≤ 4096 →
    ∃ t, exec (.drw x y n) s = .next t ∧
      (∀ (cx : Fin 64) (cy : Fin 32),
        (spriteHas s x y n cx cy → t.disp[cy][cx] = !s.disp[cy][cx]) ∧
        (¬spriteHas s x y n cx cy → t.disp[cy][cx] = s.disp[cy][cx])) ∧
      ((∃ cx cy, spriteHas s x y n cx cy ∧ s.disp[cy][cx] = true) → t.reg vf = 1) ∧
      ((¬∃ cx cy, spriteHas s x y n cx cy ∧ s.disp[cy][cx] = true) → t.reg vf = 0) ∧
      t.dirty = true ∧ Frame { regs := [vf], disp := true, dirty := true } s t

/-- R152: a DRW whose block passes the end of memory faults and writes nothing. That rows which would be clipped count is
decision D12, that n = 0 faults above 4096 is D11, the fault's form is D14 (log 17, 11, 13). -/
def Obligations.DrwFaultsWhenItsBlockLeavesMemory : Prop :=
  ∀ (s : State) (x y : Reg) (n : Fin 16), s.fault = none → 4096 < s.i.toNat + n.val →
    ∃ t, exec (.drw x y n) s = .next t ∧ FaultsWith (.bounds .read s.i.toNat n.val) s t

/-! ### Keypad and timers (spec 44) -/

/-- R170, R171: the key skips, for the keys that exist; an index above 15 is a bounds fault by decision D8 (log 9), in
the form of decision D14 (log 13). -/
def Obligations.KeySkipsFollowTheKey : Prop :=
  ∀ (s : State) (x : Reg),
    (∀ k : Fin 16, (s.reg x).toNat = k.val →
      (∃ t, exec (.skp x) s = .next t ∧
        t.pc.toNat = (if s.keys[k] = true then (s.pc.toNat + 2) % 65536 else s.pc.toNat) ∧ Frame { pc := true } s t) ∧
      (∃ t, exec (.sknp x) s = .next t ∧
        t.pc.toNat = (if s.keys[k] = true then s.pc.toNat else (s.pc.toNat + 2) % 65536) ∧ Frame { pc := true } s t)) ∧
    (15 < (s.reg x).toNat → s.fault = none →
      (∃ t, exec (.skp x) s = .next t ∧ FaultsWith (.bounds .keypad (s.reg x).toNat 1) s t) ∧
      (∃ t, exec (.sknp x) s = .next t ∧ FaultsWith (.bounds .keypad (s.reg x).toNat 1) s t))

/-- R172: FX0A rewinds PC while no key is pressed, and else writes the lowest pressed key. Bit pattern: D1, in
DecodeFollowsTheOpcodeTable. -/
def Obligations.WaitForKeyTakesTheLowestKey : Prop :=
  ∀ (s : State) (x : Reg),
    ((∀ k : Fin 16, s.keys[k] = false) →
      ∃ t, exec (.ldVxK x) s = .next t ∧ t.pc.toNat = (s.pc.toNat + 65536 - 2) % 65536 ∧ Frame { pc := true } s t) ∧
    (∀ k : Fin 16, s.keys[k] = true → (∀ j : Fin 16, j < k → s.keys[j] = false) →
      ∃ t, exec (.ldVxK x) s = .next t ∧ (t.reg x).toNat = k.val ∧ Frame { regs := [x] } s t)

/-- R173, R174, R175: the timer moves. Bit patterns: D1, in DecodeFollowsTheOpcodeTable. -/
def Obligations.TimerMovesCopyOneByte : Prop :=
  ∀ (s : State) (x : Reg),
    (∃ t, exec (.ldVxDt x) s = .next t ∧ t.reg x = s.dt ∧ Frame { regs := [x] } s t) ∧
    (∃ t, exec (.ldDtVx x) s = .next t ∧ t.dt = s.reg x ∧ Frame { dt := true } s t) ∧
    (∃ t, exec (.ldStVx x) s = .next t ∧ t.st = s.reg x ∧ Frame { st := true } s t)

/-! ### Index register and memory transfer (spec 45) -/

/-- R190, decision D1 (log 1): LD I. -/
def Obligations.LdISetsIToItsAddress : Prop :=
  ∀ (s : State) (nnn : Addr12), ∃ t, exec (.ldI nnn) s = .next t ∧ t.i.toNat = nnn.toNat ∧ Frame { i := true } s t

/-- R191, R192: ADD I and LD F; no flag. Bit patterns: D1, in DecodeFollowsTheOpcodeTable. -/
def Obligations.IndexAddAndGlyphAddress : Prop :=
  ∀ (s : State) (x : Reg),
    (∃ t, exec (.addI x) s = .next t ∧ t.i.toNat = (s.i.toNat + (s.reg x).toNat) % 65536 ∧ Frame { i := true } s t) ∧
    (∃ t, exec (.ldF x) s = .next t ∧ t.i.toNat = (s.reg x).toNat % 16 * 5 ∧ Frame { i := true } s t)

/-- R193: LD B stores the three decimal digits at I, or faults and writes nothing. The premise on memory is the invariant
StepKeepsTheInvariant keeps. That a faulting write changes no byte is decision D13 (log 18), the fault's form decision D14
(log 13), the exact sum decision D11 (log 11). -/
def Obligations.LdBStoresTheDecimalDigits : Prop :=
  ∀ (s : State) (x : Reg),
    (s.mem.wf = true → s.i.toNat + 3 ≤ 4096 →
      ∃ t, exec (.ldB x) s = .next t ∧ (t.mem.read s.i.toNat).toNat = (s.reg x).toNat / 100 ∧
        (t.mem.read (s.i.toNat + 1)).toNat = (s.reg x).toNat / 10 % 10 ∧
        (t.mem.read (s.i.toNat + 2)).toNat = (s.reg x).toNat % 10 ∧ Frame { mem := (s.i.toNat, 3) } s t) ∧
    (4096 < s.i.toNat + 3 → s.fault = none →
      ∃ t, exec (.ldB x) s = .next t ∧ FaultsWith (.bounds .write s.i.toNat 3) s t)

/-- R194: the block store of V0 to Vx, I unchanged, or its fault with nothing written (decision D13, log 18; the fault's
form: decision D14, log 13; the exact sum: decision D11, log 11). -/
def Obligations.BlockStoreWritesV0ToVx : Prop :=
  ∀ (s : State) (x : Reg),
    (s.mem.wf = true → s.i.toNat + (x.val + 1) ≤ 4096 →
      ∃ t, exec (.ldMemVx x) s = .next t ∧ (∀ r : Reg, r ≤ x → t.mem.read (s.i.toNat + r.val) = s.reg r) ∧
        Frame { mem := (s.i.toNat, x.val + 1) } s t) ∧
    (4096 < s.i.toNat + (x.val + 1) → s.fault = none →
      ∃ t, exec (.ldMemVx x) s = .next t ∧ FaultsWith (.bounds .write s.i.toNat (x.val + 1)) s t)

/-- R195: the block load of V0 to Vx, I unchanged, or its fault with nothing written (the fault's form: decision D14,
log 13; the exact sum: decision D11, log 11). -/
def Obligations.BlockLoadReadsV0ToVx : Prop :=
  ∀ (s : State) (x : Reg),
    (s.i.toNat + (x.val + 1) ≤ 4096 →
      ∃ t, exec (.ldVxMem x) s = .next t ∧ (∀ r : Reg, r ≤ x → t.reg r = s.mem.read (s.i.toNat + r.val)) ∧
        Frame { regs := upTo x } s t) ∧
    (4096 < s.i.toNat + (x.val + 1) → s.fault = none →
      ∃ t, exec (.ldVxMem x) s = .next t ∧ FaultsWith (.bounds .read s.i.toNat (x.val + 1)) s t)

/-- R194, R195, spec 95 W11: a block load at the I and x of a block store restores V0 to Vx, whatever the registers hold by then. -/
def Obligations.BlockLoadAfterBlockStoreRestoresRegisters : Prop :=
  ∀ (s : State) (x : Reg) (v : RegFile), s.mem.wf = true → s.i.toNat + (x.val + 1) ≤ 4096 →
    ∃ t u, exec (.ldMemVx x) s = .next t ∧ exec (.ldVxMem x) { t with v := v } = .next u ∧
      ∀ r : Reg, r ≤ x → u.reg r = s.reg r

/-- R67, R258, decision D21 (log 16): a word a block store puts at PC is the word the very next step executes. -/
def Obligations.StoredWordIsExecutedByTheNextStep : Prop :=
  ∀ (s : State) (x : Reg) (i : Instr), s.fault = none → s.mem.wf = true → 1 ≤ x.val →
    s.i.toNat + (x.val + 1) ≤ 4096 → s.pc = s.i → decode (wordOfBytes (s.reg 0) (s.reg 1)) = .instr i →
    ∃ t, exec (.ldMemVx x) s = .next t ∧ step t = exec i { t with pc := t.pc + 2 }

/-! ### Host interface (spec 60, 70) -/

/-- R216, R235, decision D14 (log 13): once set, the fault record stays the same through every session without a reset. -/
def Obligations.FaultIsTerminalUntilReset : Prop :=
  ∀ (s : State) (r : FaultRecord) (ts : List Transaction), s.fault = some r → (∀ t ∈ ts, t ≠ .reset) →
    (s.afterAll ts).fault = some r

/-- R235, decision D14 (log 13): what each transaction does while FAULT is set. That every load, an unreadable or too long
one included, is refused under the one name loadWhileFaulted is the model's choice (log 21). -/
def Obligations.FaultedCoreAnswersAsListed : Prop :=
  ∀ (s : State) (r : FaultRecord), s.fault = some r →
    transact .step s = .next s ∧ transact .tick s = .next s ∧
    (∀ image, transact (.load image) s = .refused .loadWhileFaulted) ∧
    (transact .display s = .next s ∧ reply .display s = .display s.displayCells s.dirty) ∧
    (transact .soundTimer s = .next s ∧ reply .soundTimer s = .soundTimer s.st) ∧
    (transact .fault s = .next s ∧ reply .fault s = .faultRecord (some r)) ∧
    (∀ k : Fin 16, ∃ t, transact (.press k.val) s = .next t ∧ t.keys[k] = true ∧ Frame { keys := [k.val] } s t) ∧
    (∀ k : Fin 16, ∃ t, transact (.release k.val) s = .next t ∧ t.keys[k] = false ∧ Frame { keys := [k.val] } s t) ∧
    (∀ k, 15 < k → transact (.press k) s = .next s ∧ transact (.release k) s = .next s) ∧
    (∃ t, transact .clearDirty s = .next t ∧ t.dirty = false ∧ Frame { dirty := true } s t) ∧
    (∃ t, transact .reset s = .next t ∧ t.fault = none)

/-- R223: the tick decrements each timer that is above 0, and nothing else. The premise is R235's: a faulted CORE does not
tick. -/
def Obligations.TickDecrementsTheTimers : Prop :=
  ∀ s : State, s.fault = none →
    ∃ t, transact .tick s = .next t ∧
      t.dt.toNat = (if s.dt.toNat > 0 then s.dt.toNat - 1 else 0) ∧
      t.st.toNat = (if s.st.toNat > 0 then s.st.toNat - 1 else 0) ∧ Frame { dt := true, st := true } s t

/-- R226, decision D26 (log 13): key events write their key, and an index above 15 is a host contract fault that changes
nothing else. -/
def Obligations.KeyEventsWriteTheirKey : Prop :=
  ∀ s : State,
    (∀ k : Fin 16, ∃ t, transact (.press k.val) s = .next t ∧ t.keys[k] = true ∧ Frame { keys := [k.val] } s t) ∧
    (∀ k : Fin 16, ∃ t, transact (.release k.val) s = .next t ∧ t.keys[k] = false ∧ Frame { keys := [k.val] } s t) ∧
    (∀ k, 15 < k → s.fault = none →
      (∃ t, transact (.press k) s = .next t ∧ t.fault = some ⟨.hostContract .press k, none⟩ ∧
        Frame { fault := true } s t) ∧
      (∃ t, transact (.release k) s = .next t ∧ t.fault = some ⟨.hostContract .release k, none⟩ ∧
        Frame { fault := true } s t))

/-- R228: clear_dirty clears DIRTY and nothing else, and no other transaction but a reset (R250) does. -/
def Obligations.OnlyClearDirtyAndResetClearDirty : Prop :=
  ∀ s : State,
    (∃ t, transact .clearDirty s = .next t ∧ t.dirty = false ∧ Frame { dirty := true } s t) ∧
    ∀ (tr : Transaction) (t : State), transact tr s = .next t → s.dirty = true → t.dirty = false →
      tr = .clearDirty ∨ tr = .reset

/-- R253, R254, R255, decision D17 (log 21): a load places the image at 0x200 and changes nothing else; one that is too
long or unreadable is refused. -/
def Obligations.LoadPlacesTheImageOrIsRefused : Prop :=
  ∀ s : State, s.fault = none →
    (∀ bytes : List Byte, s.mem.wf = true → bytes.length ≤ 3584 →
      ∃ t, transact (.load (some bytes)) s = .next t ∧
        (∀ k, k < bytes.length → some (t.mem.read (0x200 + k)) = bytes[k]?) ∧
        Frame { mem := (0x200, bytes.length) } s t) ∧
    (∀ bytes : List Byte, 3584 < bytes.length →
      transact (.load (some bytes)) s = .refused (.imageTooLong bytes.length)) ∧
    transact (.load none) s = .refused .imageUnreadable

/-- R38, R250, R251, R252 (memory, DIRTY and FAULT by decisions D7, D14, D16, D25, D28; log 4, 8, 12): the power-on state
and the state after a reset of any state hold the reset table. -/
def Obligations.ResetLeavesTheResetTable : Prop :=
  AtReset State.reset ∧ ∀ s : State, ∃ t, transact .reset s = .next t ∧ AtReset t

/-- R225, R227, R229 and R29: the queries change nothing; the display comes row-major, cell (x, y) as element y * 64 + x
of 2048. -/
def Obligations.QueriesReportAndChangeNothing : Prop :=
  ∀ s : State,
    (transact .display s = .next s ∧ ∃ cells, reply .display s = .display cells s.dirty ∧ cells.length = 2048 ∧
      ∀ (y : Fin 32) (x : Fin 64), cells[y.val * 64 + x.val]? = some (s.disp[y][x])) ∧
    (transact .soundTimer s = .next s ∧ reply .soundTimer s = .soundTimer s.st) ∧
    (transact .fault s = .next s ∧ reply .fault s = .faultRecord s.fault)

/-- R263 (decision D27), R260, and R216, R235 for the case FAULT set (decision D14, log 13): a state that has ended, well or
badly, and a state that waits for a key, stay as they are under every step. -/
def Obligations.EndedAndWaitingStatesRepeat : Prop :=
  ∀ s : State, s.status ≠ .running → step s = .next s

/-- R263 (decision D27): the three ends are what the rule says: FAULT set; the word at PC is a JP to PC; the word at PC is
an FX0A and no key is pressed. -/
def Obligations.StatusSaysHowARunStands : Prop :=
  ∀ s : State,
    (s.status = .endedBadly ↔ s.fault ≠ none) ∧
    (s.status = .endedWell ↔ s.fault = none ∧ s.pc.toNat + 2 ≤ 4096 ∧ (wordAtPc s).toNat = 0x1000 + s.pc.toNat) ∧
    (s.status = .waitingForKey ↔ s.fault = none ∧ s.pc.toNat + 2 ≤ 4096 ∧ (∀ k : Fin 16, s.keys[k] = false) ∧
      ∃ x : Reg, (wordAtPc s).toNat = 0xF00A + x.val * 256)
end

