-- ==== Sys2Proof/Laws/Decode.lean ====
section
/-! SUPPORT. The fields of an encoded word are the fields it was made of, and a word is made of its fields. Everything is
said through the word's number, so that it is linear arithmetic. -/

namespace Sys2Proof

/-- Concatenation as a number: `a : b` is `a * 2^n + b` (spec 00 R9). -/
theorem toNat_append_eq {m n : Nat} (a : BitVec m) (b : BitVec n) : (a ++ b).toNat = a.toNat * 2 ^ n + b.toNat := by
  rw [BitVec.toNat_append, ← Nat.shiftLeft_add_eq_or_of_lt b.isLt, Nat.shiftLeft_eq]

theorem toNat_encNNN (op : Fin 16) (nnn : Addr12) : (encNNN op nnn).toNat = op.val * 4096 + nnn.toNat :=
  toNat_append_eq (BitVec.ofFin (w := 4) op) nnn

theorem toNat_encXNN (op : Fin 16) (x : Reg) (nn : Byte) :
    (encXNN op x nn).toNat = op.val * 4096 + x.val * 256 + nn.toNat := by
  have h1 := toNat_append_eq (BitVec.ofFin (w := 4) op ++ BitVec.ofFin (w := 4) x) nn
  have h2 := toNat_append_eq (BitVec.ofFin (w := 4) op) (BitVec.ofFin (w := 4) x)
  simp only [BitVec.toNat_ofFin] at h2
  rw [h2] at h1
  refine h1.trans ?_
  omega

theorem toNat_encXYN (op : Fin 16) (x y : Reg) (n : Fin 16) :
    (encXYN op x y n).toNat = op.val * 4096 + x.val * 256 + y.val * 16 + n.val := by
  have h1 := toNat_append_eq (BitVec.ofFin (w := 4) op ++ BitVec.ofFin (w := 4) x ++ BitVec.ofFin (w := 4) y)
    (BitVec.ofFin (w := 4) n)
  have h2 := toNat_append_eq (BitVec.ofFin (w := 4) op ++ BitVec.ofFin (w := 4) x) (BitVec.ofFin (w := 4) y)
  have h3 := toNat_append_eq (BitVec.ofFin (w := 4) op) (BitVec.ofFin (w := 4) x)
  simp only [BitVec.toNat_ofFin] at h1 h2 h3
  rw [h2, h3] at h1
  refine h1.trans ?_
  omega

theorem val_opOf (w : Word) : (opOf w).val = w.toNat / 4096 := by
  simp [opOf, Nat.shiftRight_eq_div_pow]; omega

theorem val_xOf (w : Word) : (xOf w).val = w.toNat / 256 % 16 := by
  simp [xOf, Nat.shiftRight_eq_div_pow]

theorem val_yOf (w : Word) : (yOf w).val = w.toNat / 16 % 16 := by
  simp [yOf, Nat.shiftRight_eq_div_pow]

theorem val_nOf (w : Word) : (nOf w).val = w.toNat % 16 := by
  simp [nOf]

theorem toNat_nnOf (w : Word) : (nnOf w).toNat = w.toNat % 256 := by
  simp [nnOf]

theorem toNat_nnnOf (w : Word) : (nnnOf w).toNat = w.toNat % 4096 := by
  simp [nnnOf]

@[simp] theorem opOf_encNNN (op : Fin 16) (nnn : Addr12) : opOf (encNNN op nnn) = op :=
  Fin.ext (by rw [val_opOf, toNat_encNNN]; omega)

@[simp] theorem nnnOf_encNNN (op : Fin 16) (nnn : Addr12) : nnnOf (encNNN op nnn) = nnn :=
  BitVec.eq_of_toNat_eq (by rw [toNat_nnnOf, toNat_encNNN]; omega)

@[simp] theorem opOf_encXNN (op : Fin 16) (x : Reg) (nn : Byte) : opOf (encXNN op x nn) = op :=
  Fin.ext (by rw [val_opOf, toNat_encXNN]; omega)

@[simp] theorem xOf_encXNN (op : Fin 16) (x : Reg) (nn : Byte) : xOf (encXNN op x nn) = x :=
  Fin.ext (by rw [val_xOf, toNat_encXNN]; omega)

@[simp] theorem nnOf_encXNN (op : Fin 16) (x : Reg) (nn : Byte) : nnOf (encXNN op x nn) = nn :=
  BitVec.eq_of_toNat_eq (by rw [toNat_nnOf, toNat_encXNN]; omega)

@[simp] theorem opOf_encXYN (op : Fin 16) (x y : Reg) (n : Fin 16) : opOf (encXYN op x y n) = op :=
  Fin.ext (by rw [val_opOf, toNat_encXYN]; omega)

@[simp] theorem xOf_encXYN (op : Fin 16) (x y : Reg) (n : Fin 16) : xOf (encXYN op x y n) = x :=
  Fin.ext (by rw [val_xOf, toNat_encXYN]; omega)

@[simp] theorem yOf_encXYN (op : Fin 16) (x y : Reg) (n : Fin 16) : yOf (encXYN op x y n) = y :=
  Fin.ext (by rw [val_yOf, toNat_encXYN]; omega)

@[simp] theorem nOf_encXYN (op : Fin 16) (x y : Reg) (n : Fin 16) : nOf (encXYN op x y n) = n :=
  Fin.ext (by rw [val_nOf, toNat_encXYN]; omega)

/-- A word is its leading nibble and its low 12 bits. -/
theorem encNNN_fields (w : Word) : encNNN (opOf w) (nnnOf w) = w :=
  BitVec.eq_of_toNat_eq (by rw [toNat_encNNN, toNat_nnnOf, val_opOf]; omega)

/-- A word is its leading nibble, its second nibble and its low byte. -/
theorem encXNN_fields (w : Word) : encXNN (opOf w) (xOf w) (nnOf w) = w :=
  BitVec.eq_of_toNat_eq (by rw [toNat_encXNN, toNat_nnOf, val_xOf, val_opOf]; omega)

/-- A word is its four nibbles. -/
theorem encXYN_fields (w : Word) : encXYN (opOf w) (xOf w) (yOf w) (nOf w) = w :=
  BitVec.eq_of_toNat_eq (by rw [toNat_encXYN, val_xOf, val_yOf, val_opOf, val_nOf]; omega)

/-- The word of an instruction is its two bytes, high byte first. -/
theorem wordOfBytes_extract (w : Word) : wordOfBytes (w.extractLsb' 8 8) (w.extractLsb' 0 8) = w :=
  BitVec.eq_of_toNat_eq (by
    rw [wordOfBytes, toNat_append_eq]
    simp [Nat.shiftRight_eq_div_pow]; omega)

/-- Masking the leading nibble alone. -/
theorem encNNN_and_F000 (op : Fin 16) (nnn : Addr12) : encNNN op nnn &&& 0xF000#16 = encNNN op 0 := by
  change (BitVec.ofFin (w := 4) op ++ nnn) &&& (0xF#4 ++ 0x000#12) = BitVec.ofFin (w := 4) op ++ 0#12
  rw [BitVec.and_append, BitVec.and_zero, show (0xF#4) = BitVec.allOnes 4 from rfl, BitVec.and_allOnes]

/-- Masking the leading and the trailing nibble. -/
theorem encXYN_and_F00F (op : Fin 16) (x y : Reg) (n : Fin 16) :
    encXYN op x y n &&& 0xF00F#16 = encXYN op 0 0 n := by
  change (BitVec.ofFin (w := 4) op ++ _ ++ _ ++ BitVec.ofFin (w := 4) n) &&& (0xF#4 ++ 0x0#4 ++ 0x0#4 ++ 0xF#4) =
    BitVec.ofFin (w := 4) op ++ 0#4 ++ 0#4 ++ BitVec.ofFin (w := 4) n
  rw [BitVec.and_append, BitVec.and_append, BitVec.and_append, BitVec.and_zero, BitVec.and_zero,
    show (0xF#4) = BitVec.allOnes 4 from rfl, BitVec.and_allOnes, BitVec.and_allOnes]

/-- Masking the leading nibble and the low byte. -/
theorem encXNN_and_F0FF (op : Fin 16) (x : Reg) (nn : Byte) : encXNN op x nn &&& 0xF0FF#16 = encXNN op 0 nn := by
  change (BitVec.ofFin (w := 4) op ++ _ ++ nn) &&& (0xF#4 ++ 0x0#4 ++ 0xFF#8) = BitVec.ofFin (w := 4) op ++ 0#4 ++ nn
  rw [BitVec.and_append, BitVec.and_append, BitVec.and_zero, show (0xF#4) = BitVec.allOnes 4 from rfl,
    show (0xFF#8) = BitVec.allOnes 8 from rfl, BitVec.and_allOnes, BitVec.and_allOnes]

theorem encXNN_and_F000 (op : Fin 16) (x : Reg) (nn : Byte) : encXNN op x nn &&& 0xF000#16 = encNNN op 0 := by
  have h : encXNN op x nn = encNNN op (BitVec.ofNat 12 (x.val * 256 + nn.toNat)) :=
    BitVec.eq_of_toNat_eq (by rw [toNat_encXNN, toNat_encNNN, BitVec.toNat_ofNat]; omega)
  rw [h, encNNN_and_F000]

theorem encXYN_and_F000 (op : Fin 16) (x y : Reg) (n : Fin 16) :
    encXYN op x y n &&& 0xF000#16 = encNNN op 0 := by
  have h : encXYN op x y n = encNNN op (BitVec.ofNat 12 (x.val * 256 + y.val * 16 + n.val)) :=
    BitVec.eq_of_toNat_eq (by rw [toNat_encXYN, toNat_encNNN, BitVec.toNat_ofNat]; omega)
  rw [h, encNNN_and_F000]

/-- What masking the leading nibble alone leaves of a word. -/
theorem and_F000 (w : Word) : w &&& 0xF000#16 = encNNN (opOf w) 0 := by
  conv_lhs => rw [← encNNN_fields w]
  exact encNNN_and_F000 _ _

/-- What masking the leading and the trailing nibble leaves of a word. -/
theorem and_F00F (w : Word) : w &&& 0xF00F#16 = encXYN (opOf w) 0 0 (nOf w) := by
  conv_lhs => rw [← encXYN_fields w]
  exact encXYN_and_F00F _ _ _ _

/-- What masking the leading nibble and the low byte leaves of a word. -/
theorem and_F0FF (w : Word) : w &&& 0xF0FF#16 = encXNN (opOf w) 0 (nnOf w) := by
  conv_lhs => rw [← encXNN_fields w]
  exact encXNN_and_F0FF _ _ _

end Sys2Proof
end

