-- ==== Sys2Proof/Laws/Memory.lean ====
section
/-! SUPPORT. The byte store: a read after a write, and every write keeps the canonical form. -/

namespace Sys2Proof.Machine

/-- The size as a number, for arithmetic. -/
@[simp] theorem memSize_eq : Config.memSize = 4096 := rfl

@[simp] theorem Memory.read_nil (a : Nat) : Memory.read [] a = Memory.unlisted a := rfl

theorem Memory.read_cons (k : Nat) (b : Byte) (m : Memory) (a : Nat) :
    Memory.read ((k, b) :: m) a = if a = k then b else m.read a := rfl

theorem Memory.wfFrom_cons {lo k : Nat} {b : Byte} {m : Memory} :
    Memory.wfFrom lo ((k, b) :: m) = true ↔
      lo ≤ k ∧ k < Config.memSize ∧ b ≠ Memory.unlisted k ∧ m.wfFrom (k + 1) = true := by
  simp [Memory.wfFrom, and_assoc]

theorem Memory.wfFrom_mono {lo hi : Nat} (h : lo ≤ hi) : ∀ {m : Memory}, m.wfFrom hi = true → m.wfFrom lo = true
  | [], _ => rfl
  | (_, _) :: _, hm => by
    obtain ⟨h1, h2⟩ := wfFrom_cons.mp hm
    exact wfFrom_cons.mpr ⟨h.trans h1, h2⟩

/-- Below its first entry, memory reads as its reset contents. -/
theorem Memory.read_below {a : Nat} : ∀ {lo : Nat} {m : Memory}, m.wfFrom lo = true → a < lo → m.read a = Memory.unlisted a
  | _, [], _, _ => rfl
  | _, (k, _) :: _, hm, ha => by
    obtain ⟨h1, -, -, h4⟩ := wfFrom_cons.mp hm
    rw [read_cons, if_neg (by omega), read_below h4 (by omega)]

theorem Memory.read_entry_append (a c : Nat) (b : Byte) (m : Memory) :
    Memory.read (Memory.entry a b ++ m) c = if c = a ∧ b ≠ Memory.unlisted a then b else m.read c := by
  unfold Memory.entry
  by_cases hb : b = Memory.unlisted a <;> simp [hb, read_cons]

theorem Memory.wfFrom_entry_append {lo a : Nat} {b : Byte} {m : Memory} (hlo : lo ≤ a) (ha : a < Config.memSize)
    (hm : m.wfFrom (a + 1) = true) : Memory.wfFrom lo (Memory.entry a b ++ m) = true := by
  unfold Memory.entry
  split
  · exact wfFrom_mono (by omega) hm
  · rename_i hb; exact wfFrom_cons.mpr ⟨hlo, ha, hb, hm⟩

/-- A read after a write to the same address gives the byte written. -/
theorem Memory.read_write_self {a : Nat} {b : Byte} :
    ∀ {lo : Nat} {m : Memory}, m.wfFrom lo = true → (m.write a b).read a = b
  | _, [], _ => by
    have := read_entry_append a a b []
    rw [List.append_nil] at this
    rw [Memory.write, this]
    split <;> simp_all
  | lo, (k, c) :: m, hm => by
    obtain ⟨-, -, -, h4⟩ := wfFrom_cons.mp hm
    rw [Memory.write]
    split
    · rename_i hk
      have hne : ¬a = k := by omega
      rw [read_entry_append, read_cons, if_neg hne, read_below h4 (by omega)]
      by_cases hb : b = Memory.unlisted a <;> simp [hb]
    · split
      · rename_i hk
        rw [read_entry_append, read_below h4 (by omega)]
        by_cases hb : b = Memory.unlisted a <;> simp [hb]
      · rename_i hk
        rw [read_cons, if_neg hk, read_write_self h4]

/-- A write leaves every other address alone. -/
theorem Memory.read_write_other {a c : Nat} {b : Byte} (h : c ≠ a) : ∀ (m : Memory), (m.write a b).read c = m.read c
  | [] => by
    have := read_entry_append a c b []
    rw [List.append_nil] at this
    rw [Memory.write, this]; simp [h]
  | (k, d) :: m => by
    rw [Memory.write]
    split
    · rw [read_entry_append]; simp [h]
    · split
      · rename_i hk
        rw [read_entry_append, read_cons]; simp [h, hk ▸ h]
      · rw [read_cons, read_cons, read_write_other h m]

/-- A write inside memory keeps the canonical form. -/
theorem Memory.wfFrom_write {a : Nat} {b : Byte} (ha : a < Config.memSize) :
    ∀ {lo : Nat} {m : Memory}, lo ≤ a → m.wfFrom lo = true → (m.write a b).wfFrom lo = true
  | lo, [], hlo, _ => by
    have := wfFrom_entry_append (b := b) (m := []) hlo ha rfl
    rwa [List.append_nil] at this
  | lo, (k, c) :: m, hlo, hm => by
    obtain ⟨h1, h2, h3, h4⟩ := wfFrom_cons.mp hm
    rw [Memory.write]
    split
    · rename_i hk
      exact wfFrom_entry_append hlo ha (wfFrom_cons.mpr ⟨by omega, h2, h3, h4⟩)
    · split
      · rename_i hk; subst hk; exact wfFrom_entry_append hlo ha h4
      · exact wfFrom_cons.mpr ⟨h1, h2, h3, wfFrom_write ha (by omega) h4⟩

theorem Memory.wf_write {m : Memory} {a : Nat} {b : Byte} (ha : a < Config.memSize) (hm : m.wf = true) :
    (m.write a b).wf = true := wfFrom_write ha (Nat.zero_le a) hm

/-- A block write inside memory keeps the canonical form. -/
theorem Memory.wf_writeBytes : ∀ {bs : List Byte} {m : Memory} {a : Nat}, a + bs.length ≤ Config.memSize → m.wf = true →
    (m.writeBytes a bs).wf = true
  | [], _, _, _, hm => hm
  | b :: bs, m, a, ha, hm => by
    rw [List.length_cons] at ha
    rw [Memory.writeBytes]
    exact wf_writeBytes (by omega) (wf_write (by omega) hm)

/-- A block write leaves every address outside the block alone. -/
theorem Memory.read_writeBytes_outside : ∀ {bs : List Byte} {m : Memory} {a c : Nat}, ¬(a ≤ c ∧ c < a + bs.length) →
    (m.writeBytes a bs).read c = m.read c
  | [], _, _, _, _ => rfl
  | b :: bs, m, a, c, h => by
    rw [List.length_cons] at h
    rw [Memory.writeBytes, read_writeBytes_outside (by omega), read_write_other (by omega)]

/-- A block write stores byte k of the list at address a + k. -/
theorem Memory.read_writeBytes_inside : ∀ {bs : List Byte} {m : Memory} {a : Nat}, a + bs.length ≤ Config.memSize →
    m.wf = true → ∀ {k : Nat} (hk : k < bs.length), (m.writeBytes a bs).read (a + k) = bs[k]
  | b :: bs, m, a, ha, hm, 0, _ => by
    rw [Memory.writeBytes, read_writeBytes_outside (by omega)]
    exact read_write_self hm
  | b :: bs, m, a, ha, hm, k + 1, hk => by
    rw [List.length_cons] at ha hk
    rw [Memory.writeBytes, show a + (k + 1) = a + 1 + k by omega,
      read_writeBytes_inside (by omega) (wf_write (by omega) hm) (by omega)]
    rfl

@[simp] theorem Memory.length_readBytes (m : Memory) : ∀ (a n : Nat), (m.readBytes a n).length = n
  | _, 0 => rfl
  | a, n + 1 => congrArg (· + 1) (length_readBytes m (a + 1) n)

/-- A block read gives the byte at address a + k at place k. -/
@[simp] theorem Memory.getElem_readBytes (m : Memory) : ∀ (a n k : Nat) (hk : k < (m.readBytes a n).length),
    (m.readBytes a n)[k] = m.read (a + k)
  | _, 0, _, hk => absurd hk (Nat.not_lt_zero _)
  | _, _ + 1, 0, _ => rfl
  | a, n + 1, k + 1, hk => by
    rw [show a + (k + 1) = a + 1 + k by omega]
    exact getElem_readBytes m (a + 1) n k (Nat.lt_of_succ_lt_succ hk)

end Sys2Proof.Machine
end

