-- ==== Sys2Proof/Laws/State.lean ====
section
/-! SUPPORT. One lemma per field per update of State, true by rfl, so that no proof unfolds a record update; and what
`State.reg` reads after each update. -/

namespace Sys2Proof.Machine

variable (s : State)

/-! ### `setReg` -/

@[simp] theorem State.setReg_v (x : Reg) (b : Byte) : (s.setReg x b).v = s.v.set x b := rfl
@[simp] theorem State.setReg_i (x : Reg) (b : Byte) : (s.setReg x b).i = s.i := rfl
@[simp] theorem State.setReg_pc (x : Reg) (b : Byte) : (s.setReg x b).pc = s.pc := rfl
@[simp] theorem State.setReg_stack (x : Reg) (b : Byte) : (s.setReg x b).stack = s.stack := rfl
@[simp] theorem State.setReg_sp (x : Reg) (b : Byte) : (s.setReg x b).sp = s.sp := rfl
@[simp] theorem State.setReg_dt (x : Reg) (b : Byte) : (s.setReg x b).dt = s.dt := rfl
@[simp] theorem State.setReg_st (x : Reg) (b : Byte) : (s.setReg x b).st = s.st := rfl
@[simp] theorem State.setReg_disp (x : Reg) (b : Byte) : (s.setReg x b).disp = s.disp := rfl
@[simp] theorem State.setReg_dirty (x : Reg) (b : Byte) : (s.setReg x b).dirty = s.dirty := rfl
@[simp] theorem State.setReg_keys (x : Reg) (b : Byte) : (s.setReg x b).keys = s.keys := rfl
@[simp] theorem State.setReg_mem (x : Reg) (b : Byte) : (s.setReg x b).mem = s.mem := rfl
@[simp] theorem State.setReg_fault (x : Reg) (b : Byte) : (s.setReg x b).fault = s.fault := rfl
@[simp] theorem State.setReg_draws (x : Reg) (b : Byte) : (s.setReg x b).draws = s.draws := rfl

/-! ### `setI` -/

@[simp] theorem State.setI_v (w : Word) : (s.setI w).v = s.v := rfl
@[simp] theorem State.setI_i (w : Word) : (s.setI w).i = w := rfl
@[simp] theorem State.setI_pc (w : Word) : (s.setI w).pc = s.pc := rfl
@[simp] theorem State.setI_stack (w : Word) : (s.setI w).stack = s.stack := rfl
@[simp] theorem State.setI_sp (w : Word) : (s.setI w).sp = s.sp := rfl
@[simp] theorem State.setI_dt (w : Word) : (s.setI w).dt = s.dt := rfl
@[simp] theorem State.setI_st (w : Word) : (s.setI w).st = s.st := rfl
@[simp] theorem State.setI_disp (w : Word) : (s.setI w).disp = s.disp := rfl
@[simp] theorem State.setI_dirty (w : Word) : (s.setI w).dirty = s.dirty := rfl
@[simp] theorem State.setI_keys (w : Word) : (s.setI w).keys = s.keys := rfl
@[simp] theorem State.setI_mem (w : Word) : (s.setI w).mem = s.mem := rfl
@[simp] theorem State.setI_fault (w : Word) : (s.setI w).fault = s.fault := rfl
@[simp] theorem State.setI_draws (w : Word) : (s.setI w).draws = s.draws := rfl
@[simp] theorem State.setI_reg (w : Word) (r : Reg) : (s.setI w).reg r = s.reg r := rfl

/-! ### `setPc` -/

@[simp] theorem State.setPc_v (w : Word) : (s.setPc w).v = s.v := rfl
@[simp] theorem State.setPc_i (w : Word) : (s.setPc w).i = s.i := rfl
@[simp] theorem State.setPc_pc (w : Word) : (s.setPc w).pc = w := rfl
@[simp] theorem State.setPc_stack (w : Word) : (s.setPc w).stack = s.stack := rfl
@[simp] theorem State.setPc_sp (w : Word) : (s.setPc w).sp = s.sp := rfl
@[simp] theorem State.setPc_dt (w : Word) : (s.setPc w).dt = s.dt := rfl
@[simp] theorem State.setPc_st (w : Word) : (s.setPc w).st = s.st := rfl
@[simp] theorem State.setPc_disp (w : Word) : (s.setPc w).disp = s.disp := rfl
@[simp] theorem State.setPc_dirty (w : Word) : (s.setPc w).dirty = s.dirty := rfl
@[simp] theorem State.setPc_keys (w : Word) : (s.setPc w).keys = s.keys := rfl
@[simp] theorem State.setPc_mem (w : Word) : (s.setPc w).mem = s.mem := rfl
@[simp] theorem State.setPc_fault (w : Word) : (s.setPc w).fault = s.fault := rfl
@[simp] theorem State.setPc_draws (w : Word) : (s.setPc w).draws = s.draws := rfl
@[simp] theorem State.setPc_reg (w : Word) (r : Reg) : (s.setPc w).reg r = s.reg r := rfl

/-! ### `setDt` -/

@[simp] theorem State.setDt_v (b : Byte) : (s.setDt b).v = s.v := rfl
@[simp] theorem State.setDt_i (b : Byte) : (s.setDt b).i = s.i := rfl
@[simp] theorem State.setDt_pc (b : Byte) : (s.setDt b).pc = s.pc := rfl
@[simp] theorem State.setDt_stack (b : Byte) : (s.setDt b).stack = s.stack := rfl
@[simp] theorem State.setDt_sp (b : Byte) : (s.setDt b).sp = s.sp := rfl
@[simp] theorem State.setDt_dt (b : Byte) : (s.setDt b).dt = b := rfl
@[simp] theorem State.setDt_st (b : Byte) : (s.setDt b).st = s.st := rfl
@[simp] theorem State.setDt_disp (b : Byte) : (s.setDt b).disp = s.disp := rfl
@[simp] theorem State.setDt_dirty (b : Byte) : (s.setDt b).dirty = s.dirty := rfl
@[simp] theorem State.setDt_keys (b : Byte) : (s.setDt b).keys = s.keys := rfl
@[simp] theorem State.setDt_mem (b : Byte) : (s.setDt b).mem = s.mem := rfl
@[simp] theorem State.setDt_fault (b : Byte) : (s.setDt b).fault = s.fault := rfl
@[simp] theorem State.setDt_draws (b : Byte) : (s.setDt b).draws = s.draws := rfl
@[simp] theorem State.setDt_reg (b : Byte) (r : Reg) : (s.setDt b).reg r = s.reg r := rfl

/-! ### `setSt` -/

@[simp] theorem State.setSt_v (b : Byte) : (s.setSt b).v = s.v := rfl
@[simp] theorem State.setSt_i (b : Byte) : (s.setSt b).i = s.i := rfl
@[simp] theorem State.setSt_pc (b : Byte) : (s.setSt b).pc = s.pc := rfl
@[simp] theorem State.setSt_stack (b : Byte) : (s.setSt b).stack = s.stack := rfl
@[simp] theorem State.setSt_sp (b : Byte) : (s.setSt b).sp = s.sp := rfl
@[simp] theorem State.setSt_dt (b : Byte) : (s.setSt b).dt = s.dt := rfl
@[simp] theorem State.setSt_st (b : Byte) : (s.setSt b).st = b := rfl
@[simp] theorem State.setSt_disp (b : Byte) : (s.setSt b).disp = s.disp := rfl
@[simp] theorem State.setSt_dirty (b : Byte) : (s.setSt b).dirty = s.dirty := rfl
@[simp] theorem State.setSt_keys (b : Byte) : (s.setSt b).keys = s.keys := rfl
@[simp] theorem State.setSt_mem (b : Byte) : (s.setSt b).mem = s.mem := rfl
@[simp] theorem State.setSt_fault (b : Byte) : (s.setSt b).fault = s.fault := rfl
@[simp] theorem State.setSt_draws (b : Byte) : (s.setSt b).draws = s.draws := rfl
@[simp] theorem State.setSt_reg (b : Byte) (r : Reg) : (s.setSt b).reg r = s.reg r := rfl

/-! ### `setDirty` -/

@[simp] theorem State.setDirty_v (b : Bool) : (s.setDirty b).v = s.v := rfl
@[simp] theorem State.setDirty_i (b : Bool) : (s.setDirty b).i = s.i := rfl
@[simp] theorem State.setDirty_pc (b : Bool) : (s.setDirty b).pc = s.pc := rfl
@[simp] theorem State.setDirty_stack (b : Bool) : (s.setDirty b).stack = s.stack := rfl
@[simp] theorem State.setDirty_sp (b : Bool) : (s.setDirty b).sp = s.sp := rfl
@[simp] theorem State.setDirty_dt (b : Bool) : (s.setDirty b).dt = s.dt := rfl
@[simp] theorem State.setDirty_st (b : Bool) : (s.setDirty b).st = s.st := rfl
@[simp] theorem State.setDirty_disp (b : Bool) : (s.setDirty b).disp = s.disp := rfl
@[simp] theorem State.setDirty_dirty (b : Bool) : (s.setDirty b).dirty = b := rfl
@[simp] theorem State.setDirty_keys (b : Bool) : (s.setDirty b).keys = s.keys := rfl
@[simp] theorem State.setDirty_mem (b : Bool) : (s.setDirty b).mem = s.mem := rfl
@[simp] theorem State.setDirty_fault (b : Bool) : (s.setDirty b).fault = s.fault := rfl
@[simp] theorem State.setDirty_draws (b : Bool) : (s.setDirty b).draws = s.draws := rfl
@[simp] theorem State.setDirty_reg (b : Bool) (r : Reg) : (s.setDirty b).reg r = s.reg r := rfl

/-! ### `setDisp` -/

@[simp] theorem State.setDisp_v (d : Display) : (s.setDisp d).v = s.v := rfl
@[simp] theorem State.setDisp_i (d : Display) : (s.setDisp d).i = s.i := rfl
@[simp] theorem State.setDisp_pc (d : Display) : (s.setDisp d).pc = s.pc := rfl
@[simp] theorem State.setDisp_stack (d : Display) : (s.setDisp d).stack = s.stack := rfl
@[simp] theorem State.setDisp_sp (d : Display) : (s.setDisp d).sp = s.sp := rfl
@[simp] theorem State.setDisp_dt (d : Display) : (s.setDisp d).dt = s.dt := rfl
@[simp] theorem State.setDisp_st (d : Display) : (s.setDisp d).st = s.st := rfl
@[simp] theorem State.setDisp_disp (d : Display) : (s.setDisp d).disp = d := rfl
@[simp] theorem State.setDisp_dirty (d : Display) : (s.setDisp d).dirty = s.dirty := rfl
@[simp] theorem State.setDisp_keys (d : Display) : (s.setDisp d).keys = s.keys := rfl
@[simp] theorem State.setDisp_mem (d : Display) : (s.setDisp d).mem = s.mem := rfl
@[simp] theorem State.setDisp_fault (d : Display) : (s.setDisp d).fault = s.fault := rfl
@[simp] theorem State.setDisp_draws (d : Display) : (s.setDisp d).draws = s.draws := rfl
@[simp] theorem State.setDisp_reg (d : Display) (r : Reg) : (s.setDisp d).reg r = s.reg r := rfl

/-! ### `setMem` -/

@[simp] theorem State.setMem_v (m : Memory) : (s.setMem m).v = s.v := rfl
@[simp] theorem State.setMem_i (m : Memory) : (s.setMem m).i = s.i := rfl
@[simp] theorem State.setMem_pc (m : Memory) : (s.setMem m).pc = s.pc := rfl
@[simp] theorem State.setMem_stack (m : Memory) : (s.setMem m).stack = s.stack := rfl
@[simp] theorem State.setMem_sp (m : Memory) : (s.setMem m).sp = s.sp := rfl
@[simp] theorem State.setMem_dt (m : Memory) : (s.setMem m).dt = s.dt := rfl
@[simp] theorem State.setMem_st (m : Memory) : (s.setMem m).st = s.st := rfl
@[simp] theorem State.setMem_disp (m : Memory) : (s.setMem m).disp = s.disp := rfl
@[simp] theorem State.setMem_dirty (m : Memory) : (s.setMem m).dirty = s.dirty := rfl
@[simp] theorem State.setMem_keys (m : Memory) : (s.setMem m).keys = s.keys := rfl
@[simp] theorem State.setMem_mem (m : Memory) : (s.setMem m).mem = m := rfl
@[simp] theorem State.setMem_fault (m : Memory) : (s.setMem m).fault = s.fault := rfl
@[simp] theorem State.setMem_draws (m : Memory) : (s.setMem m).draws = s.draws := rfl
@[simp] theorem State.setMem_reg (m : Memory) (r : Reg) : (s.setMem m).reg r = s.reg r := rfl

/-! ### `setV` -/

@[simp] theorem State.setV_v (u : RegFile) : (s.setV u).v = u := rfl
@[simp] theorem State.setV_i (u : RegFile) : (s.setV u).i = s.i := rfl
@[simp] theorem State.setV_pc (u : RegFile) : (s.setV u).pc = s.pc := rfl
@[simp] theorem State.setV_stack (u : RegFile) : (s.setV u).stack = s.stack := rfl
@[simp] theorem State.setV_sp (u : RegFile) : (s.setV u).sp = s.sp := rfl
@[simp] theorem State.setV_dt (u : RegFile) : (s.setV u).dt = s.dt := rfl
@[simp] theorem State.setV_st (u : RegFile) : (s.setV u).st = s.st := rfl
@[simp] theorem State.setV_disp (u : RegFile) : (s.setV u).disp = s.disp := rfl
@[simp] theorem State.setV_dirty (u : RegFile) : (s.setV u).dirty = s.dirty := rfl
@[simp] theorem State.setV_keys (u : RegFile) : (s.setV u).keys = s.keys := rfl
@[simp] theorem State.setV_mem (u : RegFile) : (s.setV u).mem = s.mem := rfl
@[simp] theorem State.setV_fault (u : RegFile) : (s.setV u).fault = s.fault := rfl
@[simp] theorem State.setV_draws (u : RegFile) : (s.setV u).draws = s.draws := rfl

/-! ### `setKey` -/

@[simp] theorem State.setKey_v (k : Fin 16) (b : Bool) : (s.setKey k b).v = s.v := rfl
@[simp] theorem State.setKey_i (k : Fin 16) (b : Bool) : (s.setKey k b).i = s.i := rfl
@[simp] theorem State.setKey_pc (k : Fin 16) (b : Bool) : (s.setKey k b).pc = s.pc := rfl
@[simp] theorem State.setKey_stack (k : Fin 16) (b : Bool) : (s.setKey k b).stack = s.stack := rfl
@[simp] theorem State.setKey_sp (k : Fin 16) (b : Bool) : (s.setKey k b).sp = s.sp := rfl
@[simp] theorem State.setKey_dt (k : Fin 16) (b : Bool) : (s.setKey k b).dt = s.dt := rfl
@[simp] theorem State.setKey_st (k : Fin 16) (b : Bool) : (s.setKey k b).st = s.st := rfl
@[simp] theorem State.setKey_disp (k : Fin 16) (b : Bool) : (s.setKey k b).disp = s.disp := rfl
@[simp] theorem State.setKey_dirty (k : Fin 16) (b : Bool) : (s.setKey k b).dirty = s.dirty := rfl
@[simp] theorem State.setKey_keys (k : Fin 16) (b : Bool) : (s.setKey k b).keys = s.keys.set k b := rfl
@[simp] theorem State.setKey_mem (k : Fin 16) (b : Bool) : (s.setKey k b).mem = s.mem := rfl
@[simp] theorem State.setKey_fault (k : Fin 16) (b : Bool) : (s.setKey k b).fault = s.fault := rfl
@[simp] theorem State.setKey_draws (k : Fin 16) (b : Bool) : (s.setKey k b).draws = s.draws := rfl
@[simp] theorem State.setKey_reg (k : Fin 16) (b : Bool) (r : Reg) : (s.setKey k b).reg r = s.reg r := rfl

/-! ### `countDraw` -/

@[simp] theorem State.countDraw_v : s.countDraw.v = s.v := rfl
@[simp] theorem State.countDraw_i : s.countDraw.i = s.i := rfl
@[simp] theorem State.countDraw_pc : s.countDraw.pc = s.pc := rfl
@[simp] theorem State.countDraw_stack : s.countDraw.stack = s.stack := rfl
@[simp] theorem State.countDraw_sp : s.countDraw.sp = s.sp := rfl
@[simp] theorem State.countDraw_dt : s.countDraw.dt = s.dt := rfl
@[simp] theorem State.countDraw_st : s.countDraw.st = s.st := rfl
@[simp] theorem State.countDraw_disp : s.countDraw.disp = s.disp := rfl
@[simp] theorem State.countDraw_dirty : s.countDraw.dirty = s.dirty := rfl
@[simp] theorem State.countDraw_keys : s.countDraw.keys = s.keys := rfl
@[simp] theorem State.countDraw_mem : s.countDraw.mem = s.mem := rfl
@[simp] theorem State.countDraw_fault : s.countDraw.fault = s.fault := rfl
@[simp] theorem State.countDraw_draws : s.countDraw.draws = s.draws + 1 := rfl
@[simp] theorem State.countDraw_reg (r : Reg) : s.countDraw.reg r = s.reg r := rfl

/-! ### `advance` -/

@[simp] theorem State.advance_v : s.advance.v = s.v := rfl
@[simp] theorem State.advance_i : s.advance.i = s.i := rfl
@[simp] theorem State.advance_pc : s.advance.pc = s.pc + 2 := rfl
@[simp] theorem State.advance_stack : s.advance.stack = s.stack := rfl
@[simp] theorem State.advance_sp : s.advance.sp = s.sp := rfl
@[simp] theorem State.advance_dt : s.advance.dt = s.dt := rfl
@[simp] theorem State.advance_st : s.advance.st = s.st := rfl
@[simp] theorem State.advance_disp : s.advance.disp = s.disp := rfl
@[simp] theorem State.advance_dirty : s.advance.dirty = s.dirty := rfl
@[simp] theorem State.advance_keys : s.advance.keys = s.keys := rfl
@[simp] theorem State.advance_mem : s.advance.mem = s.mem := rfl
@[simp] theorem State.advance_fault : s.advance.fault = s.fault := rfl
@[simp] theorem State.advance_draws : s.advance.draws = s.draws := rfl
@[simp] theorem State.advance_reg (r : Reg) : s.advance.reg r = s.reg r := rfl

/-! ### `rewind` -/

@[simp] theorem State.rewind_v : s.rewind.v = s.v := rfl
@[simp] theorem State.rewind_i : s.rewind.i = s.i := rfl
@[simp] theorem State.rewind_pc : s.rewind.pc = s.pc - 2 := rfl
@[simp] theorem State.rewind_stack : s.rewind.stack = s.stack := rfl
@[simp] theorem State.rewind_sp : s.rewind.sp = s.sp := rfl
@[simp] theorem State.rewind_dt : s.rewind.dt = s.dt := rfl
@[simp] theorem State.rewind_st : s.rewind.st = s.st := rfl
@[simp] theorem State.rewind_disp : s.rewind.disp = s.disp := rfl
@[simp] theorem State.rewind_dirty : s.rewind.dirty = s.dirty := rfl
@[simp] theorem State.rewind_keys : s.rewind.keys = s.keys := rfl
@[simp] theorem State.rewind_mem : s.rewind.mem = s.mem := rfl
@[simp] theorem State.rewind_fault : s.rewind.fault = s.fault := rfl
@[simp] theorem State.rewind_draws : s.rewind.draws = s.draws := rfl
@[simp] theorem State.rewind_reg (r : Reg) : s.rewind.reg r = s.reg r := rfl

/-! ### `State.reg` -/

/-- Reading a register after a write of one. -/
@[simp] theorem State.setReg_reg (x r : Reg) (b : Byte) : (s.setReg x b).reg r = if r = x then b else s.reg r := by
  unfold State.reg State.setReg
  simp only [Fin.getElem_fin, Vector.getElem_set, Fin.val_inj, eq_comm (a := x)]

/-- Reading a register after the whole file is written. -/
@[simp] theorem State.setV_reg (u : RegFile) (r : Reg) : (s.setV u).reg r = u[r] := rfl

/-! ### `skipIf` -/

/-- The PC after a conditional skip. -/
@[simp] theorem State.skipIf_pc (c : Bool) : (s.skipIf c).pc = if c then s.pc + 2 else s.pc := by
  cases c <;> rfl

@[simp] theorem State.skipIf_v (c : Bool) : (s.skipIf c).v = s.v := by cases c <;> rfl
@[simp] theorem State.skipIf_i (c : Bool) : (s.skipIf c).i = s.i := by cases c <;> rfl
@[simp] theorem State.skipIf_stack (c : Bool) : (s.skipIf c).stack = s.stack := by cases c <;> rfl
@[simp] theorem State.skipIf_sp (c : Bool) : (s.skipIf c).sp = s.sp := by cases c <;> rfl
@[simp] theorem State.skipIf_dt (c : Bool) : (s.skipIf c).dt = s.dt := by cases c <;> rfl
@[simp] theorem State.skipIf_st (c : Bool) : (s.skipIf c).st = s.st := by cases c <;> rfl
@[simp] theorem State.skipIf_disp (c : Bool) : (s.skipIf c).disp = s.disp := by cases c <;> rfl
@[simp] theorem State.skipIf_dirty (c : Bool) : (s.skipIf c).dirty = s.dirty := by cases c <;> rfl
@[simp] theorem State.skipIf_keys (c : Bool) : (s.skipIf c).keys = s.keys := by cases c <;> rfl
@[simp] theorem State.skipIf_mem (c : Bool) : (s.skipIf c).mem = s.mem := by cases c <;> rfl
@[simp] theorem State.skipIf_fault (c : Bool) : (s.skipIf c).fault = s.fault := by cases c <;> rfl
@[simp] theorem State.skipIf_draws (c : Bool) : (s.skipIf c).draws = s.draws := by cases c <;> rfl
@[simp] theorem State.skipIf_reg (c : Bool) (r : Reg) : (s.skipIf c).reg r = s.reg r := by cases c <;> rfl

/-! ### `record`, and the three ways to raise a fault -/

/-- The record after a fault: the first one stays (spec 60 R235). -/
@[simp] theorem State.record_fault (r : FaultRecord) : (s.record r).fault = some (s.fault.getD r) := by
  unfold State.record
  cases h : s.fault <;> simp [h]

@[simp] theorem State.record_v (r : FaultRecord) : (s.record r).v = s.v := by
  unfold State.record; cases s.fault <;> rfl
@[simp] theorem State.record_i (r : FaultRecord) : (s.record r).i = s.i := by
  unfold State.record; cases s.fault <;> rfl
@[simp] theorem State.record_pc (r : FaultRecord) : (s.record r).pc = s.pc := by
  unfold State.record; cases s.fault <;> rfl
@[simp] theorem State.record_stack (r : FaultRecord) : (s.record r).stack = s.stack := by
  unfold State.record; cases s.fault <;> rfl
@[simp] theorem State.record_sp (r : FaultRecord) : (s.record r).sp = s.sp := by
  unfold State.record; cases s.fault <;> rfl
@[simp] theorem State.record_dt (r : FaultRecord) : (s.record r).dt = s.dt := by
  unfold State.record; cases s.fault <;> rfl
@[simp] theorem State.record_st (r : FaultRecord) : (s.record r).st = s.st := by
  unfold State.record; cases s.fault <;> rfl
@[simp] theorem State.record_disp (r : FaultRecord) : (s.record r).disp = s.disp := by
  unfold State.record; cases s.fault <;> rfl
@[simp] theorem State.record_dirty (r : FaultRecord) : (s.record r).dirty = s.dirty := by
  unfold State.record; cases s.fault <;> rfl
@[simp] theorem State.record_keys (r : FaultRecord) : (s.record r).keys = s.keys := by
  unfold State.record; cases s.fault <;> rfl
@[simp] theorem State.record_mem (r : FaultRecord) : (s.record r).mem = s.mem := by
  unfold State.record; cases s.fault <;> rfl
@[simp] theorem State.record_draws (r : FaultRecord) : (s.record r).draws = s.draws := by
  unfold State.record; cases s.fault <;> rfl
@[simp] theorem State.record_reg (r : FaultRecord) (x : Reg) : (s.record r).reg x = s.reg x := by
  simp [State.reg]

@[simp] theorem State.raise_fault (f : Fault) : (s.raise f).fault = some (s.fault.getD ⟨f, some (s.pc - 2)⟩) := s.record_fault _
@[simp] theorem State.raise_v (f : Fault) : (s.raise f).v = s.v := s.record_v _
@[simp] theorem State.raise_i (f : Fault) : (s.raise f).i = s.i := s.record_i _
@[simp] theorem State.raise_pc (f : Fault) : (s.raise f).pc = s.pc := s.record_pc _
@[simp] theorem State.raise_stack (f : Fault) : (s.raise f).stack = s.stack := s.record_stack _
@[simp] theorem State.raise_sp (f : Fault) : (s.raise f).sp = s.sp := s.record_sp _
@[simp] theorem State.raise_dt (f : Fault) : (s.raise f).dt = s.dt := s.record_dt _
@[simp] theorem State.raise_st (f : Fault) : (s.raise f).st = s.st := s.record_st _
@[simp] theorem State.raise_disp (f : Fault) : (s.raise f).disp = s.disp := s.record_disp _
@[simp] theorem State.raise_dirty (f : Fault) : (s.raise f).dirty = s.dirty := s.record_dirty _
@[simp] theorem State.raise_keys (f : Fault) : (s.raise f).keys = s.keys := s.record_keys _
@[simp] theorem State.raise_mem (f : Fault) : (s.raise f).mem = s.mem := s.record_mem _
@[simp] theorem State.raise_draws (f : Fault) : (s.raise f).draws = s.draws := s.record_draws _
@[simp] theorem State.raise_reg (f : Fault) (x : Reg) : (s.raise f).reg x = s.reg x := s.record_reg _ x

@[simp] theorem State.raiseFetch_fault (f : Fault) : (s.raiseFetch f).fault = some (s.fault.getD ⟨f, some s.pc⟩) := s.record_fault _
@[simp] theorem State.raiseFetch_v (f : Fault) : (s.raiseFetch f).v = s.v := s.record_v _
@[simp] theorem State.raiseFetch_i (f : Fault) : (s.raiseFetch f).i = s.i := s.record_i _
@[simp] theorem State.raiseFetch_pc (f : Fault) : (s.raiseFetch f).pc = s.pc := s.record_pc _
@[simp] theorem State.raiseFetch_stack (f : Fault) : (s.raiseFetch f).stack = s.stack := s.record_stack _
@[simp] theorem State.raiseFetch_sp (f : Fault) : (s.raiseFetch f).sp = s.sp := s.record_sp _
@[simp] theorem State.raiseFetch_dt (f : Fault) : (s.raiseFetch f).dt = s.dt := s.record_dt _
@[simp] theorem State.raiseFetch_st (f : Fault) : (s.raiseFetch f).st = s.st := s.record_st _
@[simp] theorem State.raiseFetch_disp (f : Fault) : (s.raiseFetch f).disp = s.disp := s.record_disp _
@[simp] theorem State.raiseFetch_dirty (f : Fault) : (s.raiseFetch f).dirty = s.dirty := s.record_dirty _
@[simp] theorem State.raiseFetch_keys (f : Fault) : (s.raiseFetch f).keys = s.keys := s.record_keys _
@[simp] theorem State.raiseFetch_mem (f : Fault) : (s.raiseFetch f).mem = s.mem := s.record_mem _
@[simp] theorem State.raiseFetch_draws (f : Fault) : (s.raiseFetch f).draws = s.draws := s.record_draws _
@[simp] theorem State.raiseFetch_reg (f : Fault) (x : Reg) : (s.raiseFetch f).reg x = s.reg x := s.record_reg _ x

@[simp] theorem State.raiseHost_fault (f : Fault) : (s.raiseHost f).fault = some (s.fault.getD ⟨f, none⟩) := s.record_fault _
@[simp] theorem State.raiseHost_v (f : Fault) : (s.raiseHost f).v = s.v := s.record_v _
@[simp] theorem State.raiseHost_i (f : Fault) : (s.raiseHost f).i = s.i := s.record_i _
@[simp] theorem State.raiseHost_pc (f : Fault) : (s.raiseHost f).pc = s.pc := s.record_pc _
@[simp] theorem State.raiseHost_stack (f : Fault) : (s.raiseHost f).stack = s.stack := s.record_stack _
@[simp] theorem State.raiseHost_sp (f : Fault) : (s.raiseHost f).sp = s.sp := s.record_sp _
@[simp] theorem State.raiseHost_dt (f : Fault) : (s.raiseHost f).dt = s.dt := s.record_dt _
@[simp] theorem State.raiseHost_st (f : Fault) : (s.raiseHost f).st = s.st := s.record_st _
@[simp] theorem State.raiseHost_disp (f : Fault) : (s.raiseHost f).disp = s.disp := s.record_disp _
@[simp] theorem State.raiseHost_dirty (f : Fault) : (s.raiseHost f).dirty = s.dirty := s.record_dirty _
@[simp] theorem State.raiseHost_keys (f : Fault) : (s.raiseHost f).keys = s.keys := s.record_keys _
@[simp] theorem State.raiseHost_mem (f : Fault) : (s.raiseHost f).mem = s.mem := s.record_mem _
@[simp] theorem State.raiseHost_draws (f : Fault) : (s.raiseHost f).draws = s.draws := s.record_draws _
@[simp] theorem State.raiseHost_reg (f : Fault) (x : Reg) : (s.raiseHost f).reg x = s.reg x := s.record_reg _ x

/-- A state is its fields: two states that agree on every one are equal. -/
theorem State.eq_of_fields {s t : State} (hv : ∀ r, t.reg r = s.reg r) (hi : t.i = s.i) (hpc : t.pc = s.pc)
    (hstack : t.stack = s.stack) (hsp : t.sp = s.sp) (hdt : t.dt = s.dt) (hst : t.st = s.st) (hdisp : t.disp = s.disp)
    (hdirty : t.dirty = s.dirty) (hkeys : t.keys = s.keys) (hmem : t.mem = s.mem) (hfault : t.fault = s.fault)
    (hdraws : t.draws = s.draws) : t = s := by
  have hv' : t.v = s.v := Vector.ext fun k hk => hv ⟨k, hk⟩
  cases s; cases t; simp_all

end Sys2Proof.Machine
end

