-- ==== Sys2Proof/Laws/Ops.lean ====
section
/-! SUPPORT. What each shared operation can do, said once. -/

namespace Sys2Proof.Machine

/-! ### Memory primitives -/

theorem memRead_of_le {m : Memory} {a n : Nat} (h : a + n ≤ Config.memSize) : memRead m a n = .ok (m.readBytes a n) := by
  unfold memRead; rw [if_neg (by omega)]

theorem memRead_of_gt {m : Memory} {a n : Nat} (h : Config.memSize < a + n) :
    memRead m a n = .error (.bounds .read a n) := by
  unfold memRead; rw [if_pos h]

theorem memWrite_of_le {m : Memory} {a : Nat} {bs : List Byte} (h : a + bs.length ≤ Config.memSize) :
    memWrite m a bs = .ok (m.writeBytes a bs) := by
  unfold memWrite; rw [if_neg (by omega)]

theorem memWrite_of_gt {m : Memory} {a : Nat} {bs : List Byte} (h : Config.memSize < a + bs.length) :
    memWrite m a bs = .error (.bounds .write a bs.length) := by
  unfold memWrite; rw [if_pos h]

/-- A block write that succeeds was in bounds, and keeps the canonical form. -/
theorem memWrite_ok {m m' : Memory} {a : Nat} {bs : List Byte} (h : memWrite m a bs = .ok m') :
    a + bs.length ≤ Config.memSize ∧ m' = m.writeBytes a bs ∧ (m.wf = true → m'.wf = true) := by
  unfold memWrite at h
  split at h
  · cases h
  · rename_i hb
    injection h with h
    subst h
    exact ⟨by omega, rfl, Memory.wf_writeBytes (by omega)⟩

theorem fetchWord_of_le {m : Memory} {a : Nat} (h : a + 2 ≤ Config.memSize) :
    fetchWord m a = .ok (wordOfBytes (m.read a) (m.read (a + 1))) := by
  unfold fetchWord; rw [if_neg (by omega)]

theorem fetchWord_of_gt {m : Memory} {a : Nat} (h : Config.memSize < a + 2) :
    fetchWord m a = .error (.bounds .fetch a 2) := by
  unfold fetchWord; rw [if_pos h]

theorem fetchWord_ok {m : Memory} {a : Nat} {w : Word} (h : fetchWord m a = .ok w) : a + 2 ≤ Config.memSize := by
  unfold fetchWord at h
  split at h
  · cases h
  · omega

/-! ### Faults -/

@[simp] theorem orRaise_ok {α : Type} (s : State) (a : α) (k : α → State) : orRaise s (.ok a) k = .next (k a) := rfl

@[simp] theorem orRaise_error {α : Type} (s : State) (f : Fault) (k : α → State) :
    orRaise s (.error f) k = .next (s.raise f) := rfl

/-- An instruction that can fault goes on with the access's value, or raises its fault. -/
theorem orRaise_next {α : Type} {s t : State} {r : Except Fault α} {k : α → State} (h : orRaise s r k = .next t) :
    (∃ a, r = .ok a ∧ t = k a) ∨ ∃ f, r = .error f ∧ t = s.raise f := by
  cases r with
  | ok a => exact .inl ⟨a, rfl, by injection h with h; exact h.symm⟩
  | error f => exact .inr ⟨f, rfl, by injection h with h; exact h.symm⟩

/-! ### Call stack -/

theorem State.push_of_lt {s : State} {w : Word} (h : s.sp.val < 16) :
    s.push w = .ok { s with stack := s.stack.set s.sp.val w, sp := ⟨s.sp.val + 1, Nat.succ_lt_succ h⟩ } := by
  unfold State.push; rw [dif_pos h]

theorem State.push_full {s : State} {w : Word} (h : s.sp.val = 16) : s.push w = .error (.stack .overflow) := by
  unfold State.push; rw [dif_neg (by omega)]

theorem State.pop_empty {s : State} (h : s.sp.val = 0) : s.pop = .error (.stack .underflow) := by
  unfold State.pop
  split
  · rfl
  · rename_i hn; rw [hn] at h; cases h

theorem State.pop_of_pos {s : State} (h : s.sp.val ≠ 0) :
    s.pop = .ok (s.stack[s.sp.val - 1]'(by omega), { s with sp := ⟨s.sp.val - 1, by omega⟩ }) := by
  unfold State.pop
  split
  · rename_i hn; rw [hn] at h; exact absurd rfl h
  · rename_i n hlt hn
    simp [hn]

/-! ### Keypad -/

theorem State.key_of_lt {s : State} {k : Nat} (h : k < 16) : s.key k = .ok s.keys[k] := by
  unfold State.key; rw [dif_pos h]

theorem State.key_of_ge {s : State} {k : Nat} (h : 16 ≤ k) : s.key k = .error (.bounds .keypad k 1) := by
  unfold State.key; rw [dif_neg (by omega)]

/-- No key is found exactly when none is pressed. -/
theorem State.lowestKey_eq_none {s : State} : s.lowestKey = none ↔ ∀ k : Fin 16, s.keys[k] = false := by
  simp [State.lowestKey, List.find?_eq_none]

/-- The key found is pressed, and no lower one is. -/
theorem State.lowestKey_eq_some {s : State} {k : Fin 16} :
    s.lowestKey = some k ↔ s.keys[k] = true ∧ ∀ j : Fin 16, j < k → s.keys[j] = false := by
  have hs : (List.finRange 16).Pairwise (· < ·) := List.pairwise_lt_finRange 16
  constructor
  · intro h
    obtain ⟨hk, as, bs, heq, has⟩ := List.find?_eq_some_iff_append.mp h
    refine ⟨by simpa using hk, fun j hj => ?_⟩
    have hmem : j ∈ as ++ k :: bs := heq ▸ List.mem_finRange j
    rw [heq, List.pairwise_append] at hs
    rcases List.mem_append.mp hmem with hja | hjb
    · simpa using has j hja
    · rcases List.mem_cons.mp hjb with rfl | hjb
      · exact absurd hj (lt_irrefl _)
      · exact absurd hj (not_lt.mpr (le_of_lt ((List.pairwise_cons.mp hs.2.1).1 j hjb)))
  · rintro ⟨hk, hlow⟩
    cases h : s.lowestKey with
    | none => exact absurd hk (by simp [State.lowestKey_eq_none.mp h k])
    | some j =>
      have hj : s.keys[j] = true := by
        have := List.find?_some h
        simpa using this
      rcases lt_trichotomy j k with hjk | rfl | hkj
      · simp [hlow j hjk] at hj
      · rfl
      · exfalso
        obtain ⟨-, as, bs, heq, has⟩ := List.find?_eq_some_iff_append.mp h
        have hmem : k ∈ as ++ j :: bs := heq ▸ List.mem_finRange k
        rw [heq, List.pairwise_append] at hs
        rcases List.mem_append.mp hmem with hka | hkb
        · exact absurd hk (by simpa using has k hka)
        · rcases List.mem_cons.mp hkb with rfl | hkb
          · exact lt_irrefl _ hkj
          · exact absurd hkj (not_lt.mpr (le_of_lt ((List.pairwise_cons.mp hs.2.1).1 k hkb)))

/-! ### Register blocks -/

@[simp] theorem length_regsUpTo (s : State) (x : Reg) : (regsUpTo s x).length = x.val + 1 := by
  simp [regsUpTo]

@[simp] theorem getElem_regsUpTo (s : State) (x : Reg) (k : Nat) (hk : k < (regsUpTo s x).length) :
    (regsUpTo s x)[k] = s.reg ⟨k, by simp at hk; omega⟩ := by
  simp [regsUpTo, State.reg]

/-- Register r after a block load of registers k, k + 1, ... -/
theorem getElem_writeRegs {r : Nat} (hr : r < 16) : ∀ (bs : List Byte) (k : Nat) (v : RegFile),
    (writeRegs k bs v)[r] = if h : k ≤ r ∧ r < k + bs.length then bs[r - k] else v[r]
  | [], k, v => by rw [writeRegs, dif_neg (by simp only [List.length_nil]; omega)]
  | b :: bs, k, v => by
    rw [writeRegs, getElem_writeRegs hr bs (k + 1)]
    simp only [List.length_cons]
    rcases lt_trichotomy k r with h | rfl | h
    · by_cases h2 : r < k + (bs.length + 1)
      · rw [dif_pos (by omega), dif_pos (by omega)]
        have : r - k = r - (k + 1) + 1 := by omega
        simp [this]
      · rw [dif_neg (by omega), dif_neg (by omega), Vector.getElem_setIfInBounds_ne hr (by omega)]
    · rw [dif_neg (by omega), dif_pos (by omega)]
      simp
    · rw [dif_neg (by omega), dif_neg (by omega), Vector.getElem_setIfInBounds_ne hr (by omega)]

@[simp] theorem length_bcdDigits (b : Byte) : (bcdDigits b).length = 3 := rfl

end Sys2Proof.Machine
end

