-- ==== Sys2Proof/Laws/Display.lean ====
section
/-! SUPPORT. The sprite engine cell by cell: which cells a sprite lights, and when it collides. -/

namespace Sys2Proof.Machine

/-- The sprite with its top-left corner at column `x0`, row `y0` has a 1 on the cell at column `cx`, row `cy`. -/
def spriteOn (x0 y0 : Nat) (rows : List Byte) (cx cy : Nat) : Bool :=
  decide (x0 ≤ cx) && decide (cx < x0 + 8) && decide (y0 ≤ cy) && decide (cy < y0 + rows.length) &&
    spriteBit spriteBitOrder (rows.getD (cy - y0) 0) (cx - x0)

/-- One pixel inverts its own cell when it is 1, and leaves every other cell alone. -/
theorem drawPixel_cell (px py : Nat) (on : Bool) (a : Display × Bool) {cx cy : Nat} (hx : cx < 64) (hy : cy < 32) :
    ((drawPixel px py on a).1[cy])[cx] = (a.1[cy][cx] ^^ (on && decide (cx = px) && decide (cy = py))) := by
  unfold drawPixel
  by_cases h : px < 64 ∧ py < 32
  · rw [dif_pos h]
    cases on
    · simp
    · by_cases hcy : py = cy
      · subst hcy
        by_cases hcx : px = cx
        · subst hcx; simp
        · simp [hcx, Ne.symm hcx]
      · simp [hcy, Ne.symm hcy]
  · rw [dif_neg h]
    have : ¬(cx = px ∧ cy = py) := by rintro ⟨rfl, rfl⟩; exact h ⟨hx, hy⟩
    by_cases h1 : cx = px <;> simp_all

/-- One pixel adds a collision exactly when it is 1 on a lit cell of the display. -/
theorem drawPixel_hit (px py : Nat) (on : Bool) (a : Display × Bool) :
    (drawPixel px py on a).2 = true ↔
      a.2 = true ∨ on = true ∧ ∃ (hx : px < 64) (hy : py < 32), a.1[py][px] = true := by
  unfold drawPixel
  by_cases h : px < 64 ∧ py < 32
  · rw [dif_pos h]
    cases on <;> simp [h.1, h.2]
  · rw [dif_neg h]
    constructor
    · exact .inl
    · rintro (h' | ⟨-, hx, hy, -⟩)
      · exact h'
      · exact absurd ⟨hx, hy⟩ h

/-- The first `n` pixels of a sprite row, cell by cell. -/
theorem drawCols_cell (x0 py : Nat) (f : Nat → Bool) (a : Display × Bool) {cx cy : Nat} (hx : cx < 64) (hy : cy < 32) :
    ∀ n, (((List.range n).foldl (fun a c => drawPixel (x0 + c) py (f c) a) a).1[cy])[cx] =
      (a.1[cy][cx] ^^ (decide (x0 ≤ cx) && decide (cx < x0 + n) && decide (cy = py) && f (cx - x0)))
  | 0 => by
    by_cases h : cx < x0
    · simp [show ¬x0 ≤ cx by omega]
    · simp [h]
  | n + 1 => by
    rw [List.range_succ, List.foldl_append, List.foldl_cons, List.foldl_nil, drawPixel_cell _ _ _ _ hx hy,
      drawCols_cell x0 py f a hx hy n]
    rcases lt_trichotomy cx (x0 + n) with h | h | h
    · have h1 : cx ≠ x0 + n := by omega
      have h2 : cx < x0 + (n + 1) := by omega
      simp [h, h1, h2]
    · subst h
      simp [Bool.and_comm]
    · have h1 : cx ≠ x0 + n := by omega
      have h2 : ¬cx < x0 + (n + 1) := by omega
      have h3 : ¬cx < x0 + n := by omega
      simp [h1, h2, h3]

/-- The first `n` pixels of a sprite row collide exactly when one of them is 1 on a cell lit before the row. -/
theorem drawCols_hit (x0 py : Nat) (f : Nat → Bool) (a : Display × Bool) :
    ∀ n, ((List.range n).foldl (fun a c => drawPixel (x0 + c) py (f c) a) a).2 = true ↔
      a.2 = true ∨ ∃ c, c < n ∧ f c = true ∧ ∃ (hx : x0 + c < 64) (hy : py < 32), a.1[py][x0 + c] = true
  | 0 => by simp
  | n + 1 => by
    rw [List.range_succ, List.foldl_append, List.foldl_cons, List.foldl_nil, drawPixel_hit, drawCols_hit x0 py f a n]
    have key : ∀ (hx : x0 + n < 64) (hy : py < 32),
        (((List.range n).foldl (fun a c => drawPixel (x0 + c) py (f c) a) a).1[py])[x0 + n] = a.1[py][x0 + n] := by
      intro hx hy
      rw [drawCols_cell x0 py f a hx hy n]
      simp
    constructor
    · rintro ((h | ⟨c, hc, h⟩) | ⟨hon, hx, hy, h⟩)
      · exact .inl h
      · exact .inr ⟨c, by omega, h⟩
      · exact .inr ⟨n, by omega, hon, hx, hy, key hx hy ▸ h⟩
    · rintro (h | ⟨c, hc, hon, hx, hy, h⟩)
      · exact .inl (.inl h)
      · rcases Nat.lt_succ_iff_lt_or_eq.mp hc with hc | rfl
        · exact .inl (.inr ⟨c, hc, hon, hx, hy, h⟩)
        · exact .inr ⟨hon, hx, hy, (key hx hy).symm ▸ h⟩

/-- The whole sprite, cell by cell: a cell is inverted exactly when the sprite has a 1 on it. -/
theorem drawRows_cell (x0 : Nat) {cx cy : Nat} (hx : cx < 64) (hy : cy < 32) :
    ∀ (rows : List Byte) (y0 : Nat) (a : Display × Bool),
      ((drawRows x0 y0 rows a).1[cy])[cx] = (a.1[cy][cx] ^^ spriteOn x0 y0 rows cx cy)
  | [], y0, a => by
    by_cases h : cy < y0
    · simp [drawRows, spriteOn, show ¬y0 ≤ cy by omega]
    · simp [drawRows, spriteOn, h]
  | row :: rows, y0, a => by
    rw [drawRows, drawRows_cell x0 hx hy rows, drawRow, drawCols_cell x0 y0 _ a hx hy 8]
    unfold spriteOn
    rcases lt_trichotomy cy y0 with h | rfl | h
    · have h1 : cy ≠ y0 := by omega
      have h2 : ¬y0 ≤ cy := by omega
      have h3 : ¬y0 + 1 ≤ cy := by omega
      simp [h1, h2, h3]
    · simp
    · have h1 : cy ≠ y0 := by omega
      have h2 : y0 ≤ cy := by omega
      have h3 : y0 + 1 ≤ cy := by omega
      have h4 : cy - y0 = cy - (y0 + 1) + 1 := by omega
      have h5 : (cy < y0 + 1 + rows.length) = (cy < y0 + (rows.length + 1)) := by
        rw [Nat.add_right_comm, Nat.add_assoc]
      simp [h1, h2, h3, h4, h5]

/-- The whole sprite collides exactly when it has a 1 on a cell of the display that was lit before it. -/
theorem drawRows_hit (x0 : Nat) : ∀ (rows : List Byte) (y0 : Nat) (a : Display × Bool),
    (drawRows x0 y0 rows a).2 = true ↔
      a.2 = true ∨ ∃ (cx : Fin 64) (cy : Fin 32), spriteOn x0 y0 rows cx cy = true ∧ a.1[cy][cx] = true
  | [], y0, a => by
    rw [drawRows]
    constructor
    · exact .inl
    · rintro (h | ⟨cx, cy, hon, -⟩)
      · exact h
      · simp [spriteOn] at hon
        omega
  | row :: rows, y0, a => by
    have hcell : ∀ (cx : Fin 64) (cy : Fin 32), (drawRow x0 y0 row a).1[cy][cx] =
        (a.1[cy][cx] ^^ (decide (x0 ≤ cx.val) && decide (cx.val < x0 + 8) && decide (cy.val = y0) &&
          spriteBit spriteBitOrder row (cx.val - x0))) :=
      fun cx cy => drawCols_cell x0 y0 _ a cx.isLt cy.isLt 8
    rw [drawRows, drawRows_hit x0 rows, drawRow, drawCols_hit x0 y0 _ a 8, ← drawRow]
    constructor
    · rintro ((h | ⟨c, hc, hon, hx, hy, h⟩) | ⟨cx, cy, hon, h⟩)
      · exact .inl h
      · refine .inr ⟨⟨x0 + c, hx⟩, ⟨y0, hy⟩, ?_, h⟩
        simp [spriteOn, hc, hon]
      · refine .inr ⟨cx, cy, ?_, ?_⟩
        · simp only [spriteOn, Bool.and_eq_true, decide_eq_true_eq, List.length_cons] at hon ⊢
          obtain ⟨⟨⟨⟨h1, h2⟩, h3⟩, h4⟩, h5⟩ := hon
          have h6 : cy.val - y0 = cy.val - (y0 + 1) + 1 := by omega
          refine ⟨⟨⟨⟨h1, h2⟩, by omega⟩, by omega⟩, ?_⟩
          rw [h6]; simpa using h5
        · rw [hcell] at h
          have : cy.val ≠ y0 := by simp [spriteOn] at hon; omega
          simpa [this] using h
    · rintro (h | ⟨cx, cy, hon, h⟩)
      · exact .inl (.inl h)
      · simp only [spriteOn, Bool.and_eq_true, decide_eq_true_eq, List.length_cons] at hon
        obtain ⟨⟨⟨⟨h1, h2⟩, h3⟩, h4⟩, h5⟩ := hon
        by_cases hcy : cy.val = y0
        · refine .inl (.inr ⟨cx.val - x0, by omega, ?_, ?_⟩)
          · simpa [hcy] using h5
          · have hxx : x0 + (cx.val - x0) = cx.val := by omega
            refine ⟨by omega, by omega, ?_⟩
            simp only [hxx, ← hcy]; exact h
        · refine .inr ⟨cx, cy, ?_, ?_⟩
          · have h6 : cy.val - y0 = cy.val - (y0 + 1) + 1 := by omega
            simp only [spriteOn, Bool.and_eq_true, decide_eq_true_eq]
            refine ⟨⟨⟨⟨h1, h2⟩, by omega⟩, by omega⟩, ?_⟩
            rw [h6] at h5; simpa using h5
          · rw [hcell]; simpa [hcy] using h

end Sys2Proof.Machine
end

