-- ==== Sys2Proof/Laws/PerInstr.lean ====
section
/-! SUPPORT. Facts about every instruction as syntax, one lemma per constructor. -/

/-- The word an instruction is encoded as matches the instruction's own row of the opcode table (spec 30 R74). -/
def Sys2Proof.Laws.RowMatch.Statement (i : Sys2Proof.Instr) : Prop :=
  i.WellFormed → i.row.matches (Sys2Proof.encode i) = true

namespace Sys2Proof.Laws

/-- A row that leaves no word to another row matches by its mask alone. -/
theorem matches_of_mask {m v w : Word} (h : w &&& m = v) : (OpcodeRow.mk m v []).matches w = true := by
  simp [OpcodeRow.matches, h]

end Sys2Proof.Laws

namespace Sys2Proof.Laws.RowMatch

theorem sys (nnn : Addr12) : Statement (.sys nnn) := by
  intro hwf
  have h1 : encNNN 0x0 nnn ≠ 0x00E0#16 := fun h => by
    have := congrArg nnnOf h
    rw [nnnOf_encNNN] at this
    subst this
    exact absurd hwf (by decide)
  have h2 : encNNN 0x0 nnn ≠ 0x00EE#16 := fun h => by
    have := congrArg nnnOf h
    rw [nnnOf_encNNN] at this
    subst this
    exact absurd hwf (by decide)
  have h3 : encNNN 0x0 nnn &&& 0xF000#16 = 0x0000#16 := encNNN_and_F000 _ nnn
  have h4 : OpcodeRow.matches ⟨0xF000, 0x0000, [0x00E0, 0x00EE]⟩ (encNNN 0x0 nnn) = true := by
    simp [OpcodeRow.matches, h1, h2, h3]
  exact h4

theorem cls : Statement .cls := fun _ => by decide

theorem ret : Statement .ret := fun _ => by decide

theorem jp (nnn : Addr12) : Statement (.jp nnn) := fun _ => matches_of_mask (encNNN_and_F000 _ nnn)

theorem call (nnn : Addr12) : Statement (.call nnn) := fun _ => matches_of_mask (encNNN_and_F000 _ nnn)

theorem seImm (x : Reg) (nn : Byte) : Statement (.seImm x nn) := fun _ => matches_of_mask (encXNN_and_F000 _ _ _)

theorem sneImm (x : Reg) (nn : Byte) : Statement (.sneImm x nn) := fun _ => matches_of_mask (encXNN_and_F000 _ _ _)

theorem seReg (x y : Reg) : Statement (.seReg x y) := fun _ => matches_of_mask (encXYN_and_F00F _ _ _ _)

theorem ldImm (x : Reg) (nn : Byte) : Statement (.ldImm x nn) := fun _ => matches_of_mask (encXNN_and_F000 _ _ _)

theorem addImm (x : Reg) (nn : Byte) : Statement (.addImm x nn) := fun _ => matches_of_mask (encXNN_and_F000 _ _ _)

theorem ldReg (x y : Reg) : Statement (.ldReg x y) := fun _ => matches_of_mask (encXYN_and_F00F _ _ _ _)

theorem orReg (x y : Reg) : Statement (.orReg x y) := fun _ => matches_of_mask (encXYN_and_F00F _ _ _ _)

theorem andReg (x y : Reg) : Statement (.andReg x y) := fun _ => matches_of_mask (encXYN_and_F00F _ _ _ _)

theorem xorReg (x y : Reg) : Statement (.xorReg x y) := fun _ => matches_of_mask (encXYN_and_F00F _ _ _ _)

theorem addReg (x y : Reg) : Statement (.addReg x y) := fun _ => matches_of_mask (encXYN_and_F00F _ _ _ _)

theorem sub (x y : Reg) : Statement (.sub x y) := fun _ => matches_of_mask (encXYN_and_F00F _ _ _ _)

theorem shr (x y : Reg) : Statement (.shr x y) := fun _ => matches_of_mask (encXYN_and_F00F _ _ _ _)

theorem subn (x y : Reg) : Statement (.subn x y) := fun _ => matches_of_mask (encXYN_and_F00F _ _ _ _)

theorem shl (x y : Reg) : Statement (.shl x y) := fun _ => matches_of_mask (encXYN_and_F00F _ _ _ _)

theorem sneReg (x y : Reg) : Statement (.sneReg x y) := fun _ => matches_of_mask (encXYN_and_F00F _ _ _ _)

theorem ldI (nnn : Addr12) : Statement (.ldI nnn) := fun _ => matches_of_mask (encNNN_and_F000 _ nnn)

theorem jpV0 (nnn : Addr12) : Statement (.jpV0 nnn) := fun _ => matches_of_mask (encNNN_and_F000 _ nnn)

theorem rnd (x : Reg) (nn : Byte) : Statement (.rnd x nn) := fun _ => matches_of_mask (encXNN_and_F000 _ _ _)

theorem drw (x y : Reg) (n : Fin 16) : Statement (.drw x y n) := fun _ => matches_of_mask (encXYN_and_F000 _ _ _ _)

theorem skp (x : Reg) : Statement (.skp x) := fun _ => matches_of_mask (encXNN_and_F0FF _ _ _)

theorem sknp (x : Reg) : Statement (.sknp x) := fun _ => matches_of_mask (encXNN_and_F0FF _ _ _)

theorem ldVxDt (x : Reg) : Statement (.ldVxDt x) := fun _ => matches_of_mask (encXNN_and_F0FF _ _ _)

theorem ldVxK (x : Reg) : Statement (.ldVxK x) := fun _ => matches_of_mask (encXNN_and_F0FF _ _ _)

theorem ldDtVx (x : Reg) : Statement (.ldDtVx x) := fun _ => matches_of_mask (encXNN_and_F0FF _ _ _)

theorem ldStVx (x : Reg) : Statement (.ldStVx x) := fun _ => matches_of_mask (encXNN_and_F0FF _ _ _)

theorem addI (x : Reg) : Statement (.addI x) := fun _ => matches_of_mask (encXNN_and_F0FF _ _ _)

theorem ldF (x : Reg) : Statement (.ldF x) := fun _ => matches_of_mask (encXNN_and_F0FF _ _ _)

theorem ldB (x : Reg) : Statement (.ldB x) := fun _ => matches_of_mask (encXNN_and_F0FF _ _ _)

theorem ldMemVx (x : Reg) : Statement (.ldMemVx x) := fun _ => matches_of_mask (encXNN_and_F0FF _ _ _)

theorem ldVxMem (x : Reg) : Statement (.ldVxMem x) := fun _ => matches_of_mask (encXNN_and_F0FF _ _ _)

end Sys2Proof.Laws.RowMatch

/-- Every well-formed instruction's word matches its row. -/
theorem Sys2Proof.Laws.rowMatch_every : ∀ i, Sys2Proof.Laws.RowMatch.Statement i
  | .sys a => RowMatch.sys a
  | .cls => RowMatch.cls
  | .ret => RowMatch.ret
  | .jp a => RowMatch.jp a
  | .call a => RowMatch.call a
  | .seImm a b => RowMatch.seImm a b
  | .sneImm a b => RowMatch.sneImm a b
  | .seReg a b => RowMatch.seReg a b
  | .ldImm a b => RowMatch.ldImm a b
  | .addImm a b => RowMatch.addImm a b
  | .ldReg a b => RowMatch.ldReg a b
  | .orReg a b => RowMatch.orReg a b
  | .andReg a b => RowMatch.andReg a b
  | .xorReg a b => RowMatch.xorReg a b
  | .addReg a b => RowMatch.addReg a b
  | .sub a b => RowMatch.sub a b
  | .shr a b => RowMatch.shr a b
  | .subn a b => RowMatch.subn a b
  | .shl a b => RowMatch.shl a b
  | .sneReg a b => RowMatch.sneReg a b
  | .ldI a => RowMatch.ldI a
  | .jpV0 a => RowMatch.jpV0 a
  | .rnd a b => RowMatch.rnd a b
  | .drw a b c => RowMatch.drw a b c
  | .skp a => RowMatch.skp a
  | .sknp a => RowMatch.sknp a
  | .ldVxDt a => RowMatch.ldVxDt a
  | .ldVxK a => RowMatch.ldVxK a
  | .ldDtVx a => RowMatch.ldDtVx a
  | .ldStVx a => RowMatch.ldStVx a
  | .addI a => RowMatch.addI a
  | .ldF a => RowMatch.ldF a
  | .ldB a => RowMatch.ldB a
  | .ldMemVx a => RowMatch.ldMemVx a
  | .ldVxMem a => RowMatch.ldVxMem a
end

