-- ==== Sys2Proof/Laws/Step.lean ====
section
/-! SUPPORT. What a step can do, said once. -/

namespace Sys2Proof.Machine

/-- Every step is one of four: nothing while faulted, a fetch fault, an instruction, or an unrecognized word. -/
theorem step_cases (s : State) :
    (s.fault ≠ none ∧ step s = .next s) ∨
    (s.fault = none ∧ Config.memSize < s.pc.toNat + 2 ∧ step s = .next (s.raiseFetch (.bounds .fetch s.pc.toNat 2))) ∨
    (s.fault = none ∧ s.pc.toNat + 2 ≤ Config.memSize ∧
      ∃ i, decode (wordOfBytes (s.mem.read s.pc.toNat) (s.mem.read (s.pc.toNat + 1))) = .instr i ∧
        step s = exec i s.advance) ∨
    (s.fault = none ∧ s.pc.toNat + 2 ≤ Config.memSize ∧
      ∃ r, decode (wordOfBytes (s.mem.read s.pc.toNat) (s.mem.read (s.pc.toNat + 1))) = .reject r ∧
        step s = .next s.advance) := by
  unfold step
  cases hf : s.fault with
  | some r => exact .inl ⟨by simp, rfl⟩
  | none =>
    refine .inr ?_
    by_cases hb : s.pc.toNat + 2 ≤ Config.memSize
    · rw [fetchWord_of_le hb]
      cases hd : decode (wordOfBytes (s.mem.read s.pc.toNat) (s.mem.read (s.pc.toNat + 1))) with
      | instr i => exact .inr (.inl ⟨rfl, hb, i, rfl, by simp only [hd]⟩)
      | reject r => exact .inr (.inr ⟨rfl, hb, r, rfl, by simp only [hd]⟩)
    · rw [fetchWord_of_gt (by omega)]
      exact .inl ⟨rfl, by omega, rfl⟩

/-- The draw of RND leaves everything but the destination register and the count of draws. -/
@[simp] theorem State.rndWith_reg (s : State) (r : Byte) (x y : Reg) (nn : Byte) :
    (s.rndWith r x nn).reg y = if y = x then r &&& nn else s.reg y := s.setReg_reg x y _

/-- The registers after a flag instruction with the flag written last: VF holds the flag, also when it is the destination. -/
@[simp] theorem State.withFlag_reg (s : State) (op flag : Byte → Byte → Byte) (x y r : Reg) :
    (s.withFlag .flagLast op flag x y).reg r =
      if r = Reg.vf then flag (s.reg x) (s.reg y) else if r = x then op (s.reg x) (s.reg y) else s.reg r := by
  simp [State.withFlag]

/-- A flag instruction writes registers only. -/
theorem State.withFlag_frame (s : State) (order : VfOrder) (op flag : Byte → Byte → Byte) (x y : Reg) :
    ∃ v, s.withFlag order op flag x y = s.setV v := by
  cases order <;> exact ⟨_, rfl⟩

/-- What a drawn sprite leaves behind besides registers. -/
theorem State.drawSprite_reg (s : State) (x y r : Reg) (rows : List Byte) :
    (s.drawSprite x y rows).reg r =
      if r = Reg.vf then flagByte (drawRows (spriteX s x) (spriteY s y) rows (s.disp, false)).2 else s.reg r := by
  simp [State.drawSprite]

end Sys2Proof.Machine
end

