-- ==== Sys2Proof/Tests/Slice0.lean ====
section
/-! SUPPORT. The model's own tests. Every word is written out from the pattern of spec 30 section 4, and every expected
result is a worked example or vector of spec 95 (named W or V) or of the rule named. The witnesses show that the hypotheses
of the obligations can be met, each clause at a boundary value. -/

namespace Sys2Proof.Tests

open Sys2Proof.Machine Sys2Proof.Spec

/-! ### Well-formedness: the one check, and the two terms it refuses -/

theorem test_wellFormed_refuses_sys_0E0 : ¬(Instr.sys 0x0E0).WellFormed := by decide

theorem test_wellFormed_refuses_sys_0EE : ¬(Instr.sys 0x0EE).WellFormed := by decide

theorem test_wellFormed_accepts_sys_0E1 : (Instr.sys 0x0E1).WellFormed := by decide

/-! ### Decoding: a word of every constructor -/

theorem test_decode_sys : decode 0b0000_0001_0010_0011 = .instr (.sys 0x123) := by decide
theorem test_decode_cls : decode 0b0000_0000_1110_0000 = .instr .cls := by decide
theorem test_decode_ret : decode 0b0000_0000_1110_1110 = .instr .ret := by decide
theorem test_decode_jp : decode 0b0001_0010_0011_0100 = .instr (.jp 0x234) := by decide
theorem test_decode_call : decode 0b0010_0011_0000_0000 = .instr (.call 0x300) := by decide
theorem test_decode_seImm : decode 0b0011_0011_0100_0010 = .instr (.seImm 3 0x42) := by decide
theorem test_decode_sneImm : decode 0b0100_0011_0100_0010 = .instr (.sneImm 3 0x42) := by decide
theorem test_decode_seReg : decode 0b0101_0001_0010_0000 = .instr (.seReg 1 2) := by decide
theorem test_decode_ldImm : decode 0b0110_1010_0010_1111 = .instr (.ldImm 10 0x2F) := by decide
theorem test_decode_addImm : decode 0b0111_0010_0000_0011 = .instr (.addImm 2 0x03) := by decide
theorem test_decode_ldReg : decode 0b1000_0001_0101_0000 = .instr (.ldReg 1 5) := by decide
theorem test_decode_orReg : decode 0b1000_0001_0010_0001 = .instr (.orReg 1 2) := by decide
theorem test_decode_andReg : decode 0b1000_0001_0010_0010 = .instr (.andReg 1 2) := by decide
theorem test_decode_xorReg : decode 0b1000_0001_0010_0011 = .instr (.xorReg 1 2) := by decide
theorem test_decode_addReg : decode 0b1000_0000_0001_0100 = .instr (.addReg 0 1) := by decide
theorem test_decode_sub : decode 0b1000_0000_0001_0101 = .instr (.sub 0 1) := by decide
theorem test_decode_shr : decode 0b1000_0000_1111_0110 = .instr (.shr 0 15) := by decide
theorem test_decode_subn : decode 0b1000_0000_0001_0111 = .instr (.subn 0 1) := by decide
theorem test_decode_shl : decode 0b1000_0011_0100_1110 = .instr (.shl 3 4) := by decide
theorem test_decode_sneReg : decode 0b1001_0001_0010_0000 = .instr (.sneReg 1 2) := by decide
theorem test_decode_ldI : decode 0b1010_0010_1111_0000 = .instr (.ldI 0x2F0) := by decide
theorem test_decode_jpV0 : decode 0b1011_0011_0000_0000 = .instr (.jpV0 0x300) := by decide
theorem test_decode_rnd : decode 0b1100_0011_0000_1111 = .instr (.rnd 3 0x0F) := by decide
theorem test_decode_drw : decode 0b1101_0001_0010_0101 = .instr (.drw 1 2 5) := by decide
theorem test_decode_skp : decode 0b1110_0100_1001_1110 = .instr (.skp 4) := by decide
theorem test_decode_sknp : decode 0b1110_0100_1010_0001 = .instr (.sknp 4) := by decide
theorem test_decode_ldVxDt : decode 0b1111_0010_0000_0111 = .instr (.ldVxDt 2) := by decide
theorem test_decode_ldVxK : decode 0b1111_0011_0000_1010 = .instr (.ldVxK 3) := by decide
theorem test_decode_ldDtVx : decode 0b1111_0010_0001_0101 = .instr (.ldDtVx 2) := by decide
theorem test_decode_ldStVx : decode 0b1111_0010_0001_1000 = .instr (.ldStVx 2) := by decide
theorem test_decode_addI : decode 0b1111_0001_0001_1110 = .instr (.addI 1) := by decide
theorem test_decode_ldF : decode 0b1111_0010_0010_1001 = .instr (.ldF 2) := by decide
theorem test_decode_ldB : decode 0b1111_0101_0011_0011 = .instr (.ldB 5) := by decide
theorem test_decode_ldMemVx : decode 0b1111_0010_0101_0101 = .instr (.ldMemVx 2) := by decide
theorem test_decode_ldVxMem : decode 0b1111_0010_0110_0101 = .instr (.ldVxMem 2) := by decide

/-- The unrecognized words of R77, one of each group. -/
theorem test_decode_rejects_by_name :
    decode 0x5121 = .reject (.group5 0x5121) ∧ decode 0x8008 = .reject (.group8 0x8008) ∧
    decode 0x900F = .reject (.group9 0x900F) ∧ decode 0xE0FF = .reject (.groupE 0xE0FF) ∧
    decode 0xF0FF = .reject (.groupF 0xF0FF) := by decide

/-- A lone byte is no instruction (R70). -/
theorem test_decode_truncated : decodeBytes [0x12] = (.reject .truncated, [0x12]) := by decide

/-- The host's numbering of a table word: the first byte in memory is the high one (R54). -/
theorem test_decodeTableWord : decodeTableWord 16 0xD125 = some (.drw 1 2 5) ∧ decodeTableWord 16 0x5121 = none := by decide

/-! ### One step -/

/-- The reset state with the word at 0x200, changed by `f`. -/
def ready (w : Nat) (f : State → State) : State := f (State.reset.withFetchWord 16 w)

/-- Memory with the bytes at the address. -/
def poke (s : State) (a : Nat) (bs : List Byte) : State := s.setMem (s.mem.writeBytes a bs)

/-- One cell lit. -/
def light (s : State) (x : Fin 64) (y : Fin 32) : State := s.setDisp (s.disp.set y (s.disp[y].set x true))

/-- The state after one step; the reset state if the step answered none. -/
def stepped (s : State) : State :=
  match step s with
  | .next t => t
  | .fault _ => State.reset
  | .refused _ => State.reset

/-- The number of lit cells. -/
def litCount (s : State) : Nat := s.displayCells.count true

/-- A stack of the given depth with one value in slot `k`. -/
def withStack (s : State) (sp : Fin 17) (k : Fin 16) (w : Word) : State := { s with sp := sp, stack := s.stack.set k w }

/-! #### Control flow (spec 95, 3.2) -/

/-- R100's example. -/
theorem test_sys : stepped (ready 0x0123 id) = (ready 0x0123 id).setPc 0x202 := by decide

/-- V10. -/
theorem test_ret_underflow :
    (stepped (ready 0x00EE id)).fault = some ⟨.stack .underflow, some 0x200⟩ ∧ (stepped (ready 0x00EE id)).pc = 0x202 := by
  decide

/-- V11. -/
theorem test_ret :
    let t := stepped (ready 0x00EE fun s => withStack s 1 0 0x206)
    t.pc = 0x206 ∧ t.sp = 0 ∧ t.stack[0] = 0x206 := by decide

/-- V14, V15. -/
theorem test_jp : (stepped (ready 0x1234 id)).pc = 0x234 ∧ (stepped (ready 0x1203 id)).pc = 0x203 := by decide

/-- V12. -/
theorem test_call :
    let t := stepped (ready 0x2300 fun s => withStack s 15 0 0)
    t.stack[15] = 0x202 ∧ t.sp = 16 ∧ t.pc = 0x300 := by decide

/-- V13. -/
theorem test_call_overflow :
    let t := stepped (ready 0x2300 fun s => withStack s 16 15 0x123)
    t.fault = some ⟨.stack .overflow, some 0x200⟩ ∧ t.sp = 16 ∧ t.pc = 0x202 ∧ t.stack[15] = 0x123 := by decide

/-- W3. -/
theorem test_seImm :
    (stepped (ready 0x3342 fun s => s.setReg 3 0x42)).pc = 0x204 ∧
    (stepped (ready 0x3342 fun s => s.setReg 3 0x41)).pc = 0x202 := by decide

/-- V24: a skip over the last word of memory, then the fetch fault. -/
theorem test_skip_past_memory :
    let s := (poke State.reset 0xFFE [0x30, 0x00]).setPc 0xFFE
    (stepped s).pc = 0x1002 ∧ (stepped (stepped s)).fault = some ⟨.bounds .fetch 0x1002 2, some 0x1002⟩ := by decide

/-- V17, V18. -/
theorem test_sneImm :
    (stepped (ready 0x4342 fun s => s.setReg 3 0x41)).pc = 0x204 ∧
    (stepped (ready 0x4342 fun s => s.setReg 3 0x42)).pc = 0x202 := by decide

/-- V19, and the register pair of V21 with the other outcome. -/
theorem test_seReg :
    (stepped (ready 0x5120 fun s => (s.setReg 1 0x07).setReg 2 0x07)).pc = 0x204 ∧
    (stepped (ready 0x5120 fun s => (s.setReg 1 0x07).setReg 2 0x08)).pc = 0x202 := by decide

/-- V21, V22. -/
theorem test_sneReg :
    (stepped (ready 0x9120 fun s => (s.setReg 1 0x07).setReg 2 0x08)).pc = 0x204 ∧
    (stepped (ready 0x9110 fun s => s.setReg 1 0x07)).pc = 0x202 := by decide

/-- V26, V27: only V0 is added, and the sum is not masked. -/
theorem test_jpV0 :
    (stepped (ready 0xBFFF fun s => s.setReg 0 0xFF)).pc = 0x10FE ∧
    (stepped (ready 0xB300 fun s => (s.setReg 0 0x01).setReg 3 0x50)).pc = 0x301 := by decide

/-- V16: a jump to 0xFFF, then the fetch fault, which leaves PC. -/
theorem test_fetch_fault :
    let t := stepped (stepped (ready 0x1FFF id))
    t.fault = some ⟨.bounds .fetch 0xFFF 2, some 0xFFF⟩ ∧ t.pc = 0xFFF := by decide

/-- R75's unrecognized word of R76: PC advances, nothing else. -/
theorem test_unrecognized : stepped (ready 0x5121 id) = (ready 0x5121 id).setPc 0x202 := by decide

/-! #### Arithmetic and logic (spec 95, 3.3) -/

/-- V30. -/
theorem test_ldImm : (stepped (ready 0x6A2F id)).reg 10 = 0x2F := by decide

/-- V31, V32. -/
theorem test_addImm :
    let t := stepped (ready 0x7203 fun s => (s.setReg 2 0xFE).setReg 15 0x55)
    t.reg 2 = 0x01 ∧ t.reg 15 = 0x55 ∧ (stepped (ready 0x7F01 fun s => s.setReg 15 0xFF)).reg 15 = 0x00 := by decide

/-- V33. -/
theorem test_ldReg : (stepped (ready 0x8150 fun s => s.setReg 5 0x33)).reg 1 = 0x33 := by decide

/-- V34. -/
theorem test_orReg :
    let t := stepped (ready 0x8121 fun s => ((s.setReg 1 0xF0).setReg 2 0x0F).setReg 15 0x33)
    t.reg 1 = 0xFF ∧ t.reg 15 = 0x33 := by decide

/-- V35. -/
theorem test_andReg :
    let t := stepped (ready 0x8122 fun s => ((s.setReg 1 0xF0).setReg 2 0x3C).setReg 15 0x33)
    t.reg 1 = 0x30 ∧ t.reg 15 = 0x33 := by decide

/-- V36, V37. -/
theorem test_xorReg :
    (stepped (ready 0x8123 fun s => (s.setReg 1 0xF0).setReg 2 0x3C)).reg 1 = 0xCC ∧
    (stepped (ready 0x8113 fun s => s.setReg 1 0x5A)).reg 1 = 0x00 := by decide

/-- W5's second part, V39. -/
theorem test_addReg :
    let t := stepped (ready 0x8014 fun s => (s.setReg 0 0x27).setReg 1 0xF1)
    let u := stepped (ready 0x8014 fun s => (s.setReg 0 0x80).setReg 1 0x7F)
    t.reg 0 = 0x18 ∧ t.reg 15 = 1 ∧ u.reg 0 = 0xFF ∧ u.reg 15 = 0 := by decide

/-- V40, V41: VF as destination and as operand. -/
theorem test_addReg_vf :
    let u := stepped (ready 0x80F4 fun s => (s.setReg 0 0x10).setReg 15 0x05)
    (stepped (ready 0x8F14 fun s => (s.setReg 15 0xFF).setReg 1 0x01)).reg 15 = 1 ∧ u.reg 0 = 0x15 ∧ u.reg 15 = 0 := by
  decide

/-- W6, V43. -/
theorem test_sub :
    let t := stepped (ready 0x8015 fun s => (s.setReg 0 0x0A).setReg 1 0x06)
    let u := stepped (ready 0x8015 fun s => (s.setReg 0 0x00).setReg 1 0x01)
    t.reg 0 = 0x04 ∧ t.reg 15 = 1 ∧ u.reg 0 = 0xFF ∧ u.reg 15 = 0 := by decide

/-- V45, V46. -/
theorem test_sub_vf :
    (stepped (ready 0x8F15 fun s => (s.setReg 15 0x05).setReg 1 0x07)).reg 15 = 0 ∧
    (stepped (ready 0x8FF5 fun s => s.setReg 15 0x05)).reg 15 = 1 := by decide

/-- V50, V51. -/
theorem test_shr :
    let t := stepped (ready 0x8006 fun s => s.setReg 0 0xFF)
    let u := stepped (ready 0x8016 fun s => (s.setReg 0 0x12).setReg 1 0xFF)
    t.reg 0 = 0x7F ∧ t.reg 15 = 1 ∧ u.reg 0 = 0x09 ∧ u.reg 15 = 0 := by decide

/-- V52, and what spec 93 U3 says of the other order. -/
theorem test_shr_vf :
    (stepped (ready 0x8F06 fun s => s.setReg 15 0x07)).reg 15 = 1 ∧
    ((State.reset.setReg 15 0x07).withFlag .flagFirst (fun a _ => a >>> 1) (fun a _ => lowBit a) 15 0).reg 15 = 0 := by
  decide

/-- V47, V48. -/
theorem test_subn :
    let t := stepped (ready 0x8017 fun s => (s.setReg 0 0x06).setReg 1 0x0A)
    let u := stepped (ready 0x8017 fun s => (s.setReg 0 0x01).setReg 1 0x00)
    t.reg 0 = 0x04 ∧ t.reg 15 = 1 ∧ u.reg 0 = 0xFF ∧ u.reg 15 = 0 := by decide

/-- V53, V54. -/
theorem test_shl :
    let t := stepped (ready 0x834E fun s => s.setReg 3 0x81)
    let u := stepped (ready 0x830E fun s => s.setReg 3 0x7F)
    t.reg 3 = 0x02 ∧ t.reg 15 = 1 ∧ u.reg 3 = 0xFE ∧ u.reg 15 = 0 := by decide

/-- V55, both orders. -/
theorem test_shl_vf :
    (stepped (ready 0x8F0E fun s => s.setReg 15 0x80)).reg 15 = 1 ∧
    ((State.reset.setReg 15 0x80).withFlag .flagFirst (fun a _ => a <<< 1) (fun a _ => highBit a) 15 0).reg 15 = 2 := by
  decide

/-- V56, V58: the draw is given, the mask is applied. -/
theorem test_rnd_mask :
    (State.reset.rndWith 0xA7 3 0x0F).reg 3 = 0x07 ∧ (State.reset.rndWith 0x5C 3 0xFF).reg 3 = 0x5C := by decide

/-- V57: a mask of 0 gives 0 for every draw. -/
theorem test_rnd_zero : ∀ r : Byte, (State.reset.rndWith r 3 0x00).reg 3 = 0x00 := by
  intro r
  simp

/-! #### Display (spec 95, 3.4) -/

/-- W1. -/
theorem test_cls :
    let t := stepped (ready 0x00E0 fun s => light s 5 5)
    litCount t = 0 ∧ t.dirty = true ∧ t.pc = 0x202 := by decide +kernel

/-- W8: collision and clipping. -/
theorem test_drw_clips_and_collides :
    let s := ready 0xD011 fun s => light (((poke s 0x300 [0xFF]).setI 0x300).setReg 0 0x3C) 61 0
    let t := stepped s
    t.disp[0][60] = true ∧ t.disp[0][61] = false ∧ t.disp[0][62] = true ∧ t.disp[0][63] = true ∧ litCount t = 3 ∧
      t.reg 15 = 1 ∧ t.dirty = true := by decide +kernel

/-- V66: the origin wraps; glyph 0 at (5, 3). -/
theorem test_drw_origin_wraps :
    let t := stepped (ready 0xD015 fun s => (s.setReg 0 0x45).setReg 1 0x23)
    litCount t = 14 ∧ t.disp[3][5] = true ∧ t.disp[3][8] = true ∧ t.disp[4][6] = false ∧ t.disp[7][8] = true ∧
      t.reg 15 = 0 := by decide +kernel

/-! #### Keypad and timers (spec 95, 3.5) -/

/-- V80, V81. -/
theorem test_skp :
    (stepped (ready 0xE49E fun s => (s.setReg 4 0x0A).setKey 10 true)).pc = 0x204 ∧
    (stepped (ready 0xE49E fun s => s.setReg 4 0x0A)).pc = 0x202 := by decide

/-- V84. -/
theorem test_skp_fault :
    (stepped (ready 0xE49E fun s => s.setReg 4 0x10)).fault = some ⟨.bounds .keypad 0x10 1, some 0x200⟩ := by decide

/-- V82, V83. -/
theorem test_sknp :
    (stepped (ready 0xE4A1 fun s => s.setReg 4 0x0A)).pc = 0x204 ∧
    (stepped (ready 0xE4A1 fun s => (s.setReg 4 0x0A).setKey 10 true)).pc = 0x202 := by decide

/-- V85: the high nibble is not masked. -/
theorem test_sknp_fault :
    (stepped (ready 0xE4A1 fun s => (s.setReg 4 0x1A).setKey 10 true)).fault =
      some ⟨.bounds .keypad 0x1A 1, some 0x200⟩ := by decide

/-- V86. -/
theorem test_ldVxK_waits : stepped (ready 0xF30A id) = ready 0xF30A id := by decide

/-- V87. -/
theorem test_ldVxK :
    let t := stepped (ready 0xF30A fun s => (s.setKey 9 true).setKey 5 true)
    t.reg 3 = 0x05 ∧ t.pc = 0x202 := by decide

/-- V89. -/
theorem test_ldVxDt :
    let t := stepped (ready 0xF207 fun s => s.setDt 0x3C)
    t.reg 2 = 0x3C ∧ t.dt = 0x3C := by decide

/-- V90. -/
theorem test_ldDtVx : (stepped (ready 0xF215 fun s => s.setReg 2 0x3C)).dt = 0x3C := by decide

/-- V91. -/
theorem test_ldStVx : (stepped (ready 0xF218 fun s => s.setReg 2 0x05)).st = 0x05 := by decide

/-! #### Index register and memory (spec 95, 3.6) -/

/-- V100. -/
theorem test_ldI : (stepped (ready 0xA2F0 fun s => s.setI 0x1234)).i = 0x02F0 := by decide

/-- V102, V103. -/
theorem test_addI :
    (stepped (ready 0xF11E fun s => (s.setI 0xFFFF).setReg 1 0x01)).i = 0x0000 ∧
    (stepped (ready 0xF11E fun s => (s.setI 0x0FFF).setReg 1 0x01)).i = 0x1000 := by decide

/-- V105, V106. -/
theorem test_ldF :
    (stepped (ready 0xF229 fun s => s.setReg 2 0x1A)).i = 0x0032 ∧
    (stepped (ready 0xF229 fun s => s.setReg 2 0x0F)).i = 0x004B := by decide

/-- W9. -/
theorem test_ldB :
    let t := stepped (ready 0xF533 fun s => (s.setReg 5 0x95).setI 0x300)
    t.mem.readBytes 0x300 3 = [1, 4, 9] ∧ t.i = 0x300 := by decide

/-- V109, V110. -/
theorem test_ldB_at_the_end :
    let t := stepped (ready 0xF533 fun s => (s.setReg 5 0x0A).setI 0xFFD)
    let u := stepped (ready 0xF533 fun s => (s.setReg 5 0xFF).setI 0xFFE)
    t.mem.readBytes 0xFFD 3 = [0, 1, 0] ∧ u.fault = some ⟨.bounds .write 0xFFE 3, some 0x200⟩ ∧
      u.mem.readBytes 0xFFE 2 = [0, 0] ∧ u.pc = 0x202 := by decide

/-- V111. -/
theorem test_ldMemVx :
    let t := stepped (ready 0xF255 fun s => (((s.setReg 0 0x11).setReg 1 0x22).setReg 2 0x33).setI 0x300)
    t.mem.readBytes 0x300 4 = [0x11, 0x22, 0x33, 0x00] ∧ t.i = 0x300 := by decide

/-- V113. -/
theorem test_ldMemVx_fault :
    (stepped (ready 0xFF55 fun s => s.setI 0xFF1)).fault = some ⟨.bounds .write 0xFF1 16, some 0x200⟩ := by decide

/-- V115. -/
theorem test_ldVxMem :
    let t := stepped (ready 0xF265 fun s => ((poke s 0x300 [0x11, 0x22, 0x33, 0x99]).setI 0x300).setReg 3 0x44)
    t.reg 0 = 0x11 ∧ t.reg 1 = 0x22 ∧ t.reg 2 = 0x33 ∧ t.reg 3 = 0x44 := by decide

/-- V117. -/
theorem test_ldVxMem_fault :
    let t := stepped (ready 0xF165 fun s => (s.setI 0xFFF).setReg 0 0x77)
    t.fault = some ⟨.bounds .read 0xFFF 2, some 0x200⟩ ∧ t.reg 0 = 0x77 := by decide

/-- Glyph A of R61's table, as P3 of spec 95 reads it. -/
theorem test_font_glyph_A : State.reset.mem.readBytes 0x032 5 = [0xF0, 0x90, 0xF0, 0x90, 0x90] := by decide

/-- V118: the font can be overwritten; writing back the reset contents leaves nothing listed. -/
theorem test_memory_canonical :
    (poke State.reset 0x005 [0, 0, 7]).mem = [(5, 0), (6, 0), (7, 7)] ∧
    (poke (poke State.reset 0x300 [1, 2]) 0x300 [0, 0]).mem = [] := by decide

/-! #### The host's transactions (spec 95, 3.5 and 3.7) -/

/-- V92, V93. -/
theorem test_tick :
    (((State.reset.setDt 1).tick).dt, ((State.reset.setDt 1).tick).st) = (0, 0) ∧
    (((State.reset.setSt 3).tick).dt, ((State.reset.setSt 3).tick).st) = (0, 2) := by decide

/-- V95. -/
theorem test_press_16 :
    let t := State.reset.after (.press 16)
    t.keys = State.reset.keys ∧ t.fault = some ⟨.hostContract .press 16, none⟩ := by decide

/-- V97. -/
theorem test_tick_faulted : ((State.reset.setDt 5).after (.press 16)).tick.dt = 5 := by decide

/-- V123, V124: a shorter image keeps the rest of the longer one, and PC stays. -/
theorem test_load :
    let s := (State.reset.setPc 0x300).afterAll [.load (some [1, 2, 3, 4, 5, 6]), .load (some [0xAA, 0xBB])]
    s.mem.readBytes 0x200 7 = [0xAA, 0xBB, 3, 4, 5, 6, 0] ∧ s.pc = 0x300 := by decide

/-- V122, and R255: nothing is changed and FAULT is not set. -/
theorem test_load_refused :
    reply (.load (some (List.replicate 3585 1))) State.reset = .error (.imageTooLong 3585) ∧
    reply (.load none) State.reset = .error .imageUnreadable ∧
    State.reset.after (.load (some (List.replicate 3585 1))) = State.reset := by decide +kernel

/-- V120. -/
theorem test_reset : (State.reset.afterAll [.load (some [1, 2]), .press 3, .press 16, .reset]) = State.reset := by decide

/-- V125. -/
theorem test_step_before_load : stepped State.reset = State.reset.setPc 0x202 := by decide

/-- R214: the codes. -/
theorem test_fault_codes :
    [Fault.bounds .fetch 0 2, .bounds .read 0 1, .bounds .write 0 1, .bounds .keypad 16 1, .stack .overflow,
      .stack .underflow, .hostContract .press 16].map Fault.code = [1, 2, 3, 4, 5, 6, 7] ∧
    State.reset.faultCode = 0 := by decide

/-- R263: the ends of a run. -/
theorem test_status :
    (ready 0x1200 id).status = .endedWell ∧ (ready 0x1202 id).status = .running ∧
    (ready 0xF30A id).status = .waitingForKey ∧ (ready 0xF30A fun s => s.setKey 4 true).status = .running ∧
    (State.reset.after (.press 16)).status = .endedBadly := by decide

/-! ### Witnesses: for every obligation with hypotheses, states and operands that meet them, each clause at its boundary -/

/-- A CORE faulted by a host contract fault. -/
def faulted : State := State.reset.after (.press 16)

/-- FetchWordIsBigEndianAndBoundsChecked: the last word, and the first address past it. -/
theorem witness_fetchWord : 0xFFE + 2 ≤ 4096 ∧ 4096 < 0xFFF + 2 := by decide

/-- MemReadReturnsTheBlockOrFaults: full memory, one byte too many, and both sides of the empty read. -/
theorem witness_memRead : 0 + 4096 ≤ 4096 ∧ 4096 < 1 + 4096 ∧ 4096 + 0 ≤ 4096 ∧ 4096 < 4097 + 0 ∧ 3 < 4096 := by decide

/-- MemWriteStoresTheBlockOrFaults. -/
theorem witness_memWrite :
    State.reset.mem.wf = true ∧ 0xFFD + [1, 2, 3].length ≤ 4096 ∧ 4096 < 0xFFE + [1, 2, 3].length ∧
    ¬(0xFFD ≤ 0xFFC ∧ 0xFFC < 0xFFD + [1, 2, 3].length) := by decide

/-- CanonicalMemoriesThatReadAlikeAreEqual. -/
theorem witness_canonical :
    Memory.wf [(5, 0), (0xFFF, 7)] = true ∧ ∀ a, Memory.read [(5, 0), (0xFFF, 7)] a = Memory.read [(5, 0), (0xFFF, 7)] a :=
  ⟨by decide, fun _ => rfl⟩

/-- DecodeFollowsTheOpcodeTable and OpcodeTableHasThirtyFiveDisjointRows: a word with a row, and one with none. -/
theorem witness_table :
    decode 0xF265 = .instr (.ldVxMem 2) ∧ (Instr.ldVxMem 0).row.matches 0xF265 = true ∧
    ∀ r ∈ opcodeTable, r.matches 0x5121 = false := by decide

/-- UnrecognizedWordIsANoOp: at 0x200, and at the last word of memory. -/
theorem witness_unrecognized :
    let s := ready 0x5121 id
    let t := (poke State.reset 0xFFE [0x51, 0x21]).setPc 0xFFE
    (s.fault = none ∧ s.pc.toNat + 2 ≤ 4096 ∧ ∀ r ∈ opcodeTable, r.matches (wordAtPc s) = false) ∧
    (t.fault = none ∧ t.pc.toNat + 2 ≤ 4096 ∧ ∀ r ∈ opcodeTable, r.matches (wordAtPc t) = false) := by decide

/-- DecodeOfEncodeIsTheInstruction and EncodeOfDecodeIsTheWord. -/
theorem witness_encode :
    (Instr.sys 0x0E1).WellFormed ∧ (Instr.drw 15 0 15).WellFormed ∧ decode 0xDF0F = .instr (.drw 15 0 15) := by decide

/-- StepRunsTheDecodedInstruction, its four clauses, the last word of memory among them. -/
theorem witness_step :
    faulted.fault ≠ none ∧
    ((State.reset.setPc 0xFFF).fault = none ∧ 4096 < (State.reset.setPc 0xFFF).pc.toNat + 2) ∧
    ((State.reset.setPc 0xFFE).fault = none ∧ (State.reset.setPc 0xFFE).pc.toNat + 2 ≤ 4096 ∧
      decode (wordAtPc (State.reset.setPc 0xFFE)) = .instr (.sys 0)) ∧
    ((ready 0x5121 id).fault = none ∧ (ready 0x5121 id).pc.toNat + 2 ≤ 4096 ∧
      decode (wordAtPc (ready 0x5121 id)) = .reject (.group5 0x5121)) := by decide

/-- StepFaultsExactlyWhereTheTableSays: an unfaulted state, with a record to leave and with none. -/
theorem witness_stepFaults :
    (ready 0x00EE id).fault = none ∧ recordAfterStep (ready 0x00EE id) = some ⟨.stack .underflow, some 0x200⟩ ∧
    recordAfterStep State.reset = none ∧
    recordAfterStep (State.reset.setPc 0xFFF) = some ⟨.bounds .fetch 0xFFF 2, some 0xFFF⟩ := by decide

/-- StepKeepsTheInvariant: a state other than reset, at the largest PC it allows, and its step. -/
theorem witness_invariant :
    let s := (poke State.reset 0x300 [1, 2]).setPc 0x10FE
    s.Inv ∧ step s = .next (stepped s) := ⟨⟨rfl, by decide, by decide⟩, rfl⟩

/-- EveryTransactionKeepsTheInvariant. -/
theorem witness_transaction : State.reset.Inv ∧ transact .tick State.reset = .next State.reset :=
  ⟨⟨rfl, by decide, by decide⟩, rfl⟩

/-- PcChangesOnlyAsListed, RegistersChangeOnlyAsDestinations, EachPieceOfStateHasOnlyItsWriters: an instruction that answers
a next state and leaves a register that is no destination. -/
theorem witness_exec :
    exec (.ldImm 3 0x42) State.reset = .next (State.reset.setReg 3 0x42) ∧ (4 : Reg) ∉ destRegs (.ldImm 3 0x42) :=
  ⟨rfl, by decide⟩

/-- FlagInstructionsLeaveAFlagInVf: the arithmetic forms, and a DRW that just fits. -/
theorem witness_flags :
    exec (.shr 15 0) State.reset = .next State.reset ∧ (State.reset.setI 0xFF1).i.toNat + (15 : Fin 16).val ≤ 4096 ∧
    exec (.drw 0 0 0) State.reset = .next (State.reset.setDirty true) := ⟨rfl, by decide, rfl⟩

/-- NoStepDoesTheHostsPart. -/
theorem witness_host :
    step State.reset = .next (State.reset.setPc 0x202) ∧ (State.reset.setDirty true).dirty = true ∧
    step faulted = .next faulted ∧ faulted.fault ≠ none := ⟨rfl, rfl, rfl, by decide⟩

/-- RetPopsTheReturnAddress: SP = 1, 16 and 0. -/
theorem witness_ret :
    (withStack State.reset 1 0 0x206).sp.val = (0 : Fin 16).val + 1 ∧
    (withStack State.reset 16 15 0x206).sp.val = (15 : Fin 16).val + 1 ∧ State.reset.sp.val = 0 ∧
    State.reset.fault = none := by decide

/-- CallPushesTheReturnAddress: SP = 0, 15 and 16. -/
theorem witness_call :
    State.reset.sp.val = (0 : Fin 16).val ∧ (withStack State.reset 15 0 0).sp.val = (15 : Fin 16).val ∧
    (withStack State.reset 16 0 0).sp.val = 16 ∧ (withStack State.reset 16 0 0).fault = none := by decide

/-- AddWritesSumThenCarry, SubtractionsWriteDifferenceThenNotBorrow, ShiftsWriteResultThenBitShiftedOut: a destination
that is not VF. -/
theorem witness_notVf : (14 : Reg) ≠ vf := by decide

/-- DrwXorsTheClippedSprite: a block that ends with memory, a cell the sprite has a 1 on, one it has not, and both
collision premises. -/
theorem witness_drw :
    let s := light ((poke State.reset 0xFFF [0x80]).setI 0xFFF) 0 0
    s.i.toNat + (1 : Fin 16).val ≤ 4096 ∧ spriteHas s 0 1 1 0 0 ∧ ¬spriteHas s 0 1 1 1 0 ∧
      (∃ cx cy, spriteHas s 0 1 1 cx cy ∧ s.disp[cy][cx] = true) ∧
      ¬∃ cx cy, spriteHas State.reset 0 1 0 cx cy ∧ State.reset.disp[cy][cx] = true := by
  have h : spriteHas (light ((poke State.reset 0xFFF [0x80]).setI 0xFFF) 0 0) 0 1 1 0 0 :=
    ⟨0, 0, by decide, by decide, by decide, by decide, by decide⟩
  refine ⟨by decide, h, ?_, ⟨0, 0, h, by decide⟩, ?_⟩
  · rintro ⟨c, r, -, hr, hx, -, hb⟩
    have h0 : r = 0 := by simpa using hr
    have h1 : c = 1 := by
      have : (1 : Nat) = 0 % 64 + c := hx
      omega
    subst h0 h1
    exact absurd hb (by decide)
  · rintro ⟨cx, cy, ⟨c, r, -, hr, -⟩, -⟩
    exact absurd hr (Nat.not_lt_zero r)

/-- DrwFaultsWhenItsBlockLeavesMemory: one byte too many, and the empty block past the end (V71, V69). -/
theorem witness_drwFault :
    State.reset.fault = none ∧ 4096 < (State.reset.setI 0xFFC).i.toNat + (5 : Fin 16).val ∧
    4096 < (State.reset.setI 0x1001).i.toNat + (0 : Fin 16).val := by decide

/-- KeySkipsFollowTheKey: V[x] = 0, 15 and 16. -/
theorem witness_keySkips :
    (State.reset.reg 4).toNat = (0 : Fin 16).val ∧ ((State.reset.setReg 4 15).reg 4).toNat = (15 : Fin 16).val ∧
    15 < ((State.reset.setReg 4 16).reg 4).toNat ∧ (State.reset.setReg 4 16).fault = none := by decide

/-- WaitForKeyTakesTheLowestKey: no key, key 0, and key 15 alone. -/
theorem witness_waitForKey :
    (∀ k : Fin 16, State.reset.keys[k] = false) ∧
    ((State.reset.setKey 0 true).keys[(0 : Fin 16)] = true ∧
      ∀ j : Fin 16, j < 0 → (State.reset.setKey 0 true).keys[j] = false) ∧
    ((State.reset.setKey 15 true).keys[(15 : Fin 16)] = true ∧
      ∀ j : Fin 16, j < 15 → (State.reset.setKey 15 true).keys[j] = false) := by decide

/-- LdBStoresTheDecimalDigits: I = 0xFFD and 0xFFE. -/
theorem witness_ldB :
    (State.reset.setI 0xFFD).mem.wf = true ∧ (State.reset.setI 0xFFD).i.toNat + 3 ≤ 4096 ∧
    4096 < (State.reset.setI 0xFFE).i.toNat + 3 ∧ (State.reset.setI 0xFFE).fault = none := by decide

/-- BlockStoreWritesV0ToVx, BlockLoadReadsV0ToVx, BlockLoadAfterBlockStoreRestoresRegisters: I = 0xFF0 and 0xFF1 for all
sixteen registers, I = 0xFFF and 0x1000 for V0 alone. -/
theorem witness_block :
    (State.reset.setI 0xFF0).mem.wf = true ∧ (State.reset.setI 0xFF0).i.toNat + ((15 : Reg).val + 1) ≤ 4096 ∧
    4096 < (State.reset.setI 0xFF1).i.toNat + ((15 : Reg).val + 1) ∧
    (State.reset.setI 0xFFF).i.toNat + ((0 : Reg).val + 1) ≤ 4096 ∧
    4096 < (State.reset.setI 0x1000).i.toNat + ((0 : Reg).val + 1) ∧ (State.reset.setI 0x1000).fault = none := by decide

/-- StoredWordIsExecutedByTheNextStep: CLS stored at 0x200 by V0 and V1, and at the last word of memory. -/
theorem witness_storedWord :
    let s := ((State.reset.setI 0x200).setReg 0 0x00).setReg 1 0xE0
    let t := (s.setI 0xFFE).setPc 0xFFE
    (s.fault = none ∧ s.mem.wf = true ∧ 1 ≤ (1 : Reg).val ∧ s.i.toNat + ((1 : Reg).val + 1) ≤ 4096 ∧ s.pc = s.i ∧
      decode (wordOfBytes (s.reg 0) (s.reg 1)) = .instr .cls) ∧
    (t.i.toNat + ((1 : Reg).val + 1) ≤ 4096 ∧ t.pc = t.i) := by decide

/-- FaultIsTerminalUntilReset, FaultedCoreAnswersAsListed. -/
theorem witness_faulted :
    faulted.fault = some ⟨.hostContract .press 16, none⟩ ∧
    ∀ t ∈ [Transaction.step, .tick, .press 3, .release 16, .load none, .clearDirty], t ≠ .reset := by decide

/-- TickDecrementsTheTimers, KeyEventsWriteTheirKey, and their boundary indexes 15 and 16. -/
theorem witness_events : State.reset.fault = none ∧ (15 : Fin 16).val = 15 ∧ 15 < 16 := by decide

/-- OnlyClearDirtyAndResetClearDirty. -/
theorem witness_dirty :
    let s := State.reset.setDirty true
    transact .clearDirty s = .next State.reset ∧ transact .reset s = .next State.reset ∧ s.dirty = true ∧
      State.reset.dirty = false := ⟨rfl, rfl, rfl, rfl⟩

/-- LoadPlacesTheImageOrIsRefused: 3584 and 3585 bytes. -/
theorem witness_load :
    State.reset.fault = none ∧ State.reset.mem.wf = true ∧ (List.replicate 3584 (1 : Byte)).length ≤ 3584 ∧
    3584 < (List.replicate 3585 (1 : Byte)).length :=
  ⟨rfl, rfl, by rw [List.length_replicate], by rw [List.length_replicate]; decide⟩

/-- EndedAndWaitingStatesRepeat: each of the three. -/
theorem witness_ended :
    faulted.status ≠ .running ∧ (ready 0x1200 id).status ≠ .running ∧ (ready 0xF30A id).status ≠ .running := by decide

end Sys2Proof.Tests
end

section
/-! PROOFS. What an instruction may write (spec 10): one inversion lemma for `exec`, and the statements about the state
that follow from it. -/

namespace Sys2Proof.Machine

open Sys2Proof.Spec

/-! ### What an instruction writes -/

/-- The forms a state can take after an instruction, by the pieces of state written. A form that only some instructions
take names them, and a form that writes registers says that only destinations are written. -/
inductive Effect (s : State) (i : Instr) : State → Prop
  /-- A fault is recorded and nothing else is written (spec 60 R217). -/
  | fault (f : Fault) : Effect s i (s.raise f)
  | nothing : Effect s i s
  | skip (c : Bool) (hi : isSkip i = true) : Effect s i (s.skipIf c)
  | rewind (x : Reg) (hi : i = .ldVxK x) (hk : ∀ k : Fin 16, s.keys[k] = false) : Effect s i s.rewind
  /-- JP and JP V0: no target exceeds 0xFFF + 0xFF (spec 41 R108). -/
  | jump (w : Word) (hi : isTransfer i = true) (hw : w.toNat ≤ 0x10FE) : Effect s i (s.setPc w)
  | call (nnn : Addr12) (k : Fin 16) (sp : Fin 17) (hi : i = .call nnn) :
      Effect s i ({ s with stack := s.stack.set k s.pc, sp := sp }.setPc (zext16 nnn))
  | ret (k : Fin 16) (sp : Fin 17) (hi : i = .ret) : Effect s i ({ s with sp := sp }.setPc s.stack[k])
  | regs (v : RegFile) (hv : ∀ r, r ∉ destRegs i → v[r] = s.reg r) : Effect s i (s.setV v)
  | draw (v : RegFile) (hv : ∀ r, r ∉ destRegs i → v[r] = s.reg r) : Effect s i (s.setV v).countDraw
  | display (d : Display) (v : RegFile) (hi : i = .cls ∨ ∃ x y n, i = .drw x y n)
      (hv : ∀ r, r ∉ destRegs i → v[r] = s.reg r) : Effect s i (((s.setDisp d).setV v).setDirty true)
  | index (w : Word) (hi : (∃ nnn, i = .ldI nnn) ∨ (∃ x, i = .addI x) ∨ ∃ x, i = .ldF x) : Effect s i (s.setI w)
  | delayTimer (x : Reg) (b : Byte) (hi : i = .ldDtVx x) : Effect s i (s.setDt b)
  | soundTimer (x : Reg) (b : Byte) (hi : i = .ldStVx x) : Effect s i (s.setSt b)
  | memory (m : Memory) (hi : (∃ x, i = .ldB x) ∨ ∃ x, i = .ldMemVx x) (hm : s.mem.wf = true → m.wf = true) :
      Effect s i (s.setMem m)

variable {s t : State} {i : Instr}

theorem Effect.of_next {u : State} (h : (.next u : Result) = .next t) (hu : Effect s i u) : Effect s i t :=
  Host.Outcome.next.inj h ▸ hu

/-- An instruction that can fault records its fault, or goes on with the value of its access. -/
theorem Effect.of_orRaise {α : Type} {r : Except Fault α} {k : α → State} (h : orRaise s r k = .next t)
    (hk : ∀ a, r = .ok a → Effect s i (k a)) : Effect s i t := by
  obtain ⟨a, hr, rfl⟩ | ⟨f, -, rfl⟩ := orRaise_next h
  · exact hk a hr
  · exact .fault f

/-- A write of a destination register. -/
theorem Effect.setReg {x : Reg} (b : Byte) (hx : x ∈ destRegs i) : Effect s i (s.setReg x b) := by
  refine .regs (s.v.set x b) fun r hr => ?_
  have hne : r ≠ x := fun h => hr (h ▸ hx)
  exact (s.setReg_reg x r b).trans (if_neg hne)

theorem Effect.withFlag (op flag : Byte → Byte → Byte) {x : Reg} (y : Reg) (hi : destRegs i = [x, vf]) :
    Effect s i (s.withFlag .flagLast op flag x y) := by
  refine .regs (s.withFlag .flagLast op flag x y).v fun r hr => ?_
  obtain ⟨hx, hvf⟩ : r ≠ x ∧ r ≠ vf := by simpa [hi] using hr
  exact (s.withFlag_reg op flag x y r).trans ((if_neg hvf).trans (if_neg hx))

theorem Effect.rnd (b : Byte) (x : Reg) (nn : Byte) : Effect s (.rnd x nn) (s.rndWith b x nn).countDraw := by
  refine .draw (s.rndWith b x nn).v fun r hr => ?_
  have hne : r ≠ x := by simpa [destRegs] using hr
  exact (s.rndWith_reg b x r nn).trans (if_neg hne)

theorem Effect.drawSprite (x y : Reg) (n : Fin 16) (rows : List Byte) :
    Effect s (.drw x y n) (s.drawSprite x y rows) := by
  refine .display _ (s.drawSprite x y rows).v (.inr ⟨x, y, n, rfl⟩) fun r hr => ?_
  have hne : r ≠ vf := by simpa [destRegs] using hr
  exact (s.drawSprite_reg x y r rows).trans (if_neg hne)

/-- A push that succeeds writes one slot and SP. -/
theorem State.push_ok {w : Word} (h : s.push w = .ok t) :
    ∃ (k : Fin 16) (sp : Fin 17), t = { s with stack := s.stack.set k w, sp := sp } := by
  by_cases hsp : s.sp.val < 16
  · rw [push_of_lt hsp] at h
    exact ⟨⟨s.sp.val, hsp⟩, _, (Except.ok.inj h).symm⟩
  · rw [push_full (by omega)] at h
    cases h

/-- A pop that succeeds reads one slot and writes SP. -/
theorem State.pop_ok {p : Word × State} (h : s.pop = .ok p) :
    ∃ (k : Fin 16) (sp : Fin 17), p = (s.stack[k], { s with sp := sp }) := by
  by_cases hsp : s.sp.val = 0
  · rw [pop_empty hsp] at h
    cases h
  · rw [pop_of_pos hsp] at h
    exact ⟨⟨s.sp.val - 1, by omega⟩, _, (Except.ok.inj h).symm⟩

theorem zext16_toNat (nnn : Addr12) : (zext16 nnn).toNat = nnn.toNat :=
  BitVec.toNat_setWidth_of_le (by decide)

theorem offsetTarget_toNat (s : State) (nnn : Addr12) : (offsetTarget s nnn).toNat = nnn.toNat + (s.reg 0).toNat := by
  have hnnn := nnn.isLt
  have hreg := (s.reg 0).isLt
  rw [offsetTarget, BitVec.toNat_ofNat, Nat.mod_eq_of_lt (by omega)]

/-- The target of JP and CALL is at most 0xFFF (spec 41 R102, R103). -/
theorem zext16_toNat_le (nnn : Addr12) : (zext16 nnn).toNat ≤ 0xFFF := by
  have hnnn := nnn.isLt
  rw [zext16_toNat]
  omega

/-- The target of JP V0 is at most 0xFFF + 0xFF (spec 41 R108). -/
theorem offsetTarget_toNat_le (s : State) (nnn : Addr12) : (offsetTarget s nnn).toNat ≤ 0x10FE := by
  have hnnn := nnn.isLt
  have hreg := (s.reg 0).isLt
  rw [offsetTarget_toNat]
  omega

/-- A block read that succeeds answers as many bytes as were asked for. -/
theorem memRead_ok_length {m : Memory} {a n : Nat} {bs : List Byte} (h : memRead m a n = .ok bs) : bs.length = n := by
  unfold memRead at h
  split at h
  · cases h
  · rw [← Except.ok.inj h, Memory.length_readBytes]

/-- A block load writes V0 to Vx only (spec 45 R195). -/
theorem getElem_writeRegs_above {x r : Reg} (bs : List Byte) (v : RegFile) (hlen : bs.length = x.val + 1)
    (hr : r ∉ upTo x) : (writeRegs 0 bs v)[r] = v[r] := by
  have hlt : x < r := by simpa [upTo] using hr
  rw [Fin.lt_def] at hlt
  exact (getElem_writeRegs r.isLt bs 0 v).trans (dif_neg (by omega))

/-- Every instruction has one of the listed effects. -/
theorem exec_effect : ∀ i : Instr, exec i s = .next t → Effect s i t
  | .sys _, h => .of_next h .nothing
  | .cls, h => .of_next h (.display (Vector.replicate 32 (Vector.replicate 64 false)) s.v (.inl rfl) fun _ _ => rfl)
  | .ret, h => .of_orRaise h fun p hp => by
      obtain ⟨k, sp, rfl⟩ := State.pop_ok hp
      exact .ret k sp rfl
  | .jp nnn, h => .of_next h (.jump _ rfl ((zext16_toNat_le nnn).trans (by decide)))
  | .call nnn, h => .of_orRaise h fun u hu => by
      obtain ⟨k, sp, rfl⟩ := State.push_ok hu
      exact .call nnn k sp rfl
  | .seImm _ _, h => .of_next h (.skip _ rfl)
  | .sneImm _ _, h => .of_next h (.skip _ rfl)
  | .seReg _ _, h => .of_next h (.skip _ rfl)
  | .ldImm _ _, h => .of_next h (.setReg _ (.head _))
  | .addImm _ _, h => .of_next h (.setReg _ (.head _))
  | .ldReg _ _, h => .of_next h (.setReg _ (.head _))
  | .orReg _ _, h => .of_next h (.setReg _ (.head _))
  | .andReg _ _, h => .of_next h (.setReg _ (.head _))
  | .xorReg _ _, h => .of_next h (.setReg _ (.head _))
  | .addReg _ y, h => .of_next h (.withFlag _ _ y rfl)
  | .sub _ y, h => .of_next h (.withFlag _ _ y rfl)
  | .shr _ y, h => .of_next h (.withFlag _ _ y rfl)
  | .subn _ y, h => .of_next h (.withFlag _ _ y rfl)
  | .shl _ y, h => .of_next h (.withFlag _ _ y rfl)
  | .sneReg _ _, h => .of_next h (.skip _ rfl)
  | .ldI nnn, h => .of_next h (.index _ (.inl ⟨nnn, rfl⟩))
  | .jpV0 nnn, h => .of_next h (.jump _ rfl (offsetTarget_toNat_le s nnn))
  | .rnd x nn, h => .of_next h (.rnd _ x nn)
  | .drw x y n, h => .of_orRaise h fun rows _ => .drawSprite x y n rows
  | .skp _, h => .of_orRaise h fun _ _ => .skip _ rfl
  | .sknp _, h => .of_orRaise h fun _ _ => .skip _ rfl
  | .ldVxDt _, h => .of_next h (.setReg _ (.head _))
  | .ldVxK x, h => by
      simp only [exec, execLdVxK] at h
      cases hk : s.lowestKey with
      | none =>
        rw [hk] at h
        exact .of_next h (.rewind x rfl (State.lowestKey_eq_none.mp hk))
      | some k =>
        rw [hk] at h
        exact .of_next h (.setReg _ (.head _))
  | .ldDtVx x, h => .of_next h (.delayTimer x _ rfl)
  | .ldStVx x, h => .of_next h (.soundTimer x _ rfl)
  | .addI x, h => .of_next h (.index _ (.inr (.inl ⟨x, rfl⟩)))
  | .ldF x, h => .of_next h (.index _ (.inr (.inr ⟨x, rfl⟩)))
  | .ldB x, h => .of_orRaise h fun m hm => .memory m (.inl ⟨x, rfl⟩) (memWrite_ok hm).2.2
  | .ldMemVx x, h => .of_orRaise h fun m hm => .memory m (.inr ⟨x, rfl⟩) (memWrite_ok hm).2.2
  | .ldVxMem x, h => .of_orRaise h fun bs hbs => .regs _ fun r hr =>
      getElem_writeRegs_above bs s.v (memRead_ok_length hbs) hr

/-! ### The invariant -/

/-- After a fetch inside memory, PC has advanced to 0x002 to 0x1000, and no instruction leaves the invariant from there. -/
theorem Effect.inv (he : Effect s i t) (hmem : s.MemCanonical) (hlo : 2 ≤ s.pc.toNat) (hhi : s.pc.toNat ≤ 0x1000)
    (hstack : ∀ k : Fin 16, s.stack[k].toNat ≤ 0x1000) : t.Inv := by
  have hpc : s.pc.toNat ≤ 0x10FE := by omega
  cases he with
  | fault f => exact ⟨by simpa [State.MemCanonical] using hmem, by simpa using hpc, by simpa using hstack⟩
  | nothing => exact ⟨hmem, hpc, hstack⟩
  | skip c _ =>
    refine ⟨by simpa [State.MemCanonical] using hmem, ?_, by simpa using hstack⟩
    rw [State.skipIf_pc]
    split
    · bv_omega
    · exact hpc
  | rewind x _ _ => exact ⟨hmem, by rw [State.rewind_pc]; bv_omega, hstack⟩
  | jump w _ hw => exact ⟨hmem, hw, hstack⟩
  | call nnn k sp _ =>
    refine ⟨hmem, (zext16_toNat_le nnn).trans (by decide), fun j => ?_⟩
    simp only [State.setPc_stack, Fin.getElem_fin, Vector.getElem_set]
    split
    · exact hhi
    · exact hstack j
  | ret k sp _ => exact ⟨hmem, (hstack k).trans (by decide), hstack⟩
  | memory m _ hm => exact ⟨hm hmem, hpc, hstack⟩
  | _ => exact ⟨hmem, hpc, hstack⟩

/-- Settles O14: PC is at most 0xFFE at a fetch that succeeds, so the advanced PC meets the premises of `Effect.inv`. -/
theorem stepKeepsTheInvariant : Obligations.StepKeepsTheInvariant := by
  rintro s t ⟨hmem, hpc, hstack⟩ ht
  obtain ⟨-, hs⟩ | ⟨-, -, hs⟩ | ⟨-, hb, i, -, hs⟩ | ⟨-, hb, r, -, hs⟩ := step_cases s <;> rw [hs] at ht
  · cases ht
    exact ⟨hmem, hpc, hstack⟩
  · cases ht
    exact ⟨by simpa [State.MemCanonical] using hmem, by simpa using hpc, by simpa using hstack⟩
  all_goals
    have hadv : s.advance.pc.toNat = s.pc.toNat + 2 := by
      rw [memSize_eq] at hb
      rw [State.advance_pc]
      bv_omega
    rw [memSize_eq] at hb
  · exact (exec_effect i ht).inv hmem (by omega) (by omega) hstack
  · cases ht
    exact ⟨hmem, by omega, hstack⟩

/-- Settles O16: nothing is listed in memory, PC is 0x200 and every slot is 0. -/
theorem resetMeetsTheInvariant : Obligations.ResetMeetsTheInvariant :=
  ⟨rfl, by decide, fun k => by simp [State.reset]⟩

/-! ### Who writes which piece of state -/

/-- Settles O17: only skips, the rewind and the transfers have an effect on PC. -/
theorem pcChangesOnlyAsListed : Obligations.PcChangesOnlyAsListed := by
  intro i s t h
  cases exec_effect i h with
  | fault f => exact .inl (s.raise_pc f)
  | skip c hi =>
    cases c
    · exact .inl rfl
    · exact .inr (.inl ⟨hi, rfl⟩)
  | rewind x hi hk => exact .inr (.inr (.inl ⟨⟨x, hi⟩, hk, rfl⟩))
  | jump w hi _ => exact .inr (.inr (.inr hi))
  | call nnn k sp hi => exact .inr (.inr (.inr (hi ▸ rfl)))
  | ret k sp hi => exact .inr (.inr (.inr (hi ▸ rfl)))
  | _ => exact .inl rfl

/-- Settles O18: the three effects that write registers write destinations only. -/
theorem registersChangeOnlyAsDestinations : Obligations.RegistersChangeOnlyAsDestinations := by
  intro i s t r h hr
  cases exec_effect i h with
  | fault f => exact s.raise_reg f r
  | skip c _ => exact s.skipIf_reg c r
  | regs v hv => exact hv r hr
  | draw v hv => exact hv r hr
  | display d v _ hv => exact hv r hr
  | _ => rfl

/-- Settles O20: each effect leaves every piece but its own. -/
theorem eachPieceOfStateHasOnlyItsWriters : Obligations.EachPieceOfStateHasOnlyItsWriters := by
  intro i s t h
  cases exec_effect i h with
  | call nnn k sp hi => simp [hi]
  | ret k sp hi => simp [hi]
  | display d v hi _ => simp [hi]
  | index w hi => simp [hi]
  | delayTimer x b hi => simp [hi]
  | soundTimer x b hi => simp [hi]
  | memory m hi _ => simp [hi]
  | _ => simp

/-- CLS and DRW set DIRTY, a fault and every other instruction leave it (spec 10 R30). -/
theorem Effect.dirty (he : Effect s i t) (h : s.dirty = true) : t.dirty = true := by
  cases he with
  | display d v _ _ => rfl
  | fault f => rw [State.raise_dirty, h]
  | skip c _ => rw [State.skipIf_dirty, h]
  | _ => exact h

/-- Settles O21: a faulted step does nothing, and the one other step that is no instruction's raises or advances. -/
theorem noStepDoesTheHostsPart : Obligations.NoStepDoesTheHostsPart := by
  intro s t ht
  obtain ⟨-, hs⟩ | ⟨hf, -, hs⟩ | ⟨hf, -, i, -, hs⟩ | ⟨hf, -, r, -, hs⟩ := step_cases s <;> rw [hs] at ht
  · cases ht
    exact ⟨rfl, id, fun _ => rfl⟩
  · cases ht
    exact ⟨s.raiseFetch_keys _, by simp, fun h => absurd hf h⟩
  · obtain ⟨-, -, -, -, -, -, -, -, hkeys⟩ := eachPieceOfStateHasOnlyItsWriters i _ t ht
    exact ⟨hkeys, (exec_effect i ht).dirty, fun h => absurd hf h⟩
  · cases ht
    exact ⟨rfl, id, fun h => absurd hf h⟩

/-! ### Memory as data -/

/-- An entry says something: a memory that lists address `k` first does not read as one that lists only later addresses. -/
theorem Memory.read_ne_of_head_lt {lo k : Nat} {b : Byte} {m m' : Memory} (hm : Memory.wfFrom lo ((k, b) :: m) = true)
    (hm' : m'.wfFrom (k + 1) = true) : Memory.read ((k, b) :: m) k ≠ m'.read k := by
  obtain ⟨-, -, hb, -⟩ := wfFrom_cons.mp hm
  rw [read_cons, if_pos rfl, read_below hm' k.lt_succ_self]
  exact hb

/-- The bytes listed after the first entry are read alike when the whole memories are. -/
theorem Memory.tail_read_alike {k : Nat} {b b' : Byte} {m m' : Memory} (hm : m.wfFrom (k + 1) = true)
    (hm' : m'.wfFrom (k + 1) = true) (h : ∀ a, Memory.read ((k, b) :: m) a = Memory.read ((k, b') :: m') a) (a : Nat) :
    m.read a = m'.read a := by
  by_cases ha : a = k
  · rw [ha, read_below hm k.lt_succ_self, read_below hm' k.lt_succ_self]
  · simpa [read_cons, ha] using h a

/-- Canonical memories from one address on that read alike are equal, by induction on both lists. -/
theorem Memory.eq_of_read_alike : ∀ {lo : Nat} {m m' : Memory}, m.wfFrom lo = true → m'.wfFrom lo = true →
    (∀ a, m.read a = m'.read a) → m = m'
  | _, [], [], _, _, _ => rfl
  | _, [], (k, _) :: _, _, hm', h => absurd (h k).symm (read_ne_of_head_lt hm' rfl)
  | _, (k, _) :: _, [], hm, _, h => absurd (h k) (read_ne_of_head_lt hm rfl)
  | _, (k, b) :: m, (k', b') :: m', hm, hm', h => by
    obtain ⟨-, hk, hb, htail⟩ := wfFrom_cons.mp hm
    obtain ⟨-, hk', hb', htail'⟩ := wfFrom_cons.mp hm'
    rcases lt_trichotomy k k' with hlt | rfl | hlt
    · exact absurd (h k) (read_ne_of_head_lt hm (wfFrom_cons.mpr ⟨hlt, hk', hb', htail'⟩))
    · have hbb : b = b' := by simpa [read_cons] using h k
      rw [hbb, eq_of_read_alike htail htail' (tail_read_alike htail htail' h)]
    · exact absurd (h k').symm (read_ne_of_head_lt hm' (wfFrom_cons.mpr ⟨hlt, hk, hb, htail⟩))

/-- Settles O4, from the induction over both lists. -/
theorem canonicalMemoriesThatReadAlikeAreEqual : Obligations.CanonicalMemoriesThatReadAlikeAreEqual :=
  fun _ _ => Memory.eq_of_read_alike

/-! ### Flags -/

/-- A byte that a flag instruction may leave in VF. -/
def IsFlag (b : Byte) : Prop := b = 0 ∨ b = 1

theorem isFlag_flagByte (c : Bool) : IsFlag (flagByte c) := by
  cases c
  · exact .inl rfl
  · exact .inr rfl

theorem isFlag_lowBit (a : Byte) : IsFlag (lowBit a) := by
  have h : lowBit a = BitVec.setWidth 8 (BitVec.ofBool (a.getLsbD 0)) := BitVec.and_one_eq_setWidth_ofBool_getLsbD
  rw [h]
  cases a.getLsbD 0
  · exact .inl rfl
  · exact .inr rfl

theorem isFlag_highBit (a : Byte) : IsFlag (highBit a) := isFlag_lowBit (a >>> 7)

/-- With the flag written last, VF holds it whatever the destination (decision D5, log 6). -/
theorem isFlag_withFlag {op flag : Byte → Byte → Byte} (hflag : ∀ a b, IsFlag (flag a b)) (s : State) (x y : Reg) :
    IsFlag ((s.withFlag .flagLast op flag x y).reg vf) := by
  have hvf : (s.withFlag .flagLast op flag x y).reg vf = flag (s.reg x) (s.reg y) := by
    rw [State.withFlag_reg]
    exact if_pos rfl
  exact hvf ▸ hflag _ _

/-- A DRW whose block lies in memory leaves its collision flag (spec 43 R157). -/
theorem isFlag_drw {x y : Reg} {n : Fin 16} (hb : s.i.toNat + n.val ≤ 4096) (h : exec (.drw x y n) s = .next t) :
    IsFlag (t.reg vf) := by
  have hdraw : exec (.drw x y n) s = .next (s.drawSprite x y (s.mem.readBytes s.i.toNat n.val)) := by
    change orRaise s (memRead s.mem s.i.toNat n.val) _ = _
    rw [memRead_of_le hb, orRaise_ok]
  cases hdraw.symm.trans h
  have hvf : (s.drawSprite x y (s.mem.readBytes s.i.toNat n.val)).reg vf = flagByte _ :=
    (s.drawSprite_reg x y vf _).trans (if_pos rfl)
  exact hvf ▸ isFlag_flagByte _

/-- Settles O19: each of the six leaves a flag value in VF, written last. -/
theorem flagInstructionsLeaveAFlagInVf : Obligations.FlagInstructionsLeaveAFlagInVf := by
  rintro s t x y n i (rfl | rfl | rfl | rfl | rfl | ⟨rfl, hb⟩) h
  case inr.inr.inr.inr.inr => exact isFlag_drw hb h
  all_goals cases h
  · exact isFlag_withFlag (fun _ _ => isFlag_flagByte _) s x y
  · exact isFlag_withFlag (fun _ _ => isFlag_flagByte _) s x y
  · exact isFlag_withFlag (fun _ _ => isFlag_flagByte _) s x y
  · exact isFlag_withFlag (fun a _ => isFlag_lowBit a) s x y
  · exact isFlag_withFlag (fun a _ => isFlag_highBit a) s x y

/-! ### Reset -/

/-- Every address above the font's 80 bytes reads 0x00 where nothing is listed (spec 20 R61). -/
theorem Memory.unlisted_above_font {a : Nat} (h : 80 ≤ a) : Memory.unlisted a = 0 := by
  rw [Memory.unlisted, if_pos a.zero_le]
  exact List.getD_eq_default _ _ h

/-- The model's font table is the printed one, and it stands at address 0. -/
theorem Memory.unlisted_font : ∀ a, a < 80 → (Memory.unlisted a).toNat = Spec.font.getD a 0 := by decide

/-- The count of draws is no part of the reset table. -/
theorem atReset_reset_with_draws (n : Nat) : AtReset { State.reset with draws := n } where
  regs r := by simp [State.reg, State.reset]
  i := rfl
  pc := rfl
  sp := rfl
  slots k := by simp [State.reset]
  timers := ⟨rfl, rfl⟩
  keys k := by simp [State.reset]
  disp y x := by simp [State.reset]
  dirty := rfl
  font := Memory.unlisted_font
  zeros _ h _ := Memory.unlisted_above_font h
  fault := rfl

/-- Settles O54: a reset is the reset state with the count of draws kept. -/
theorem resetLeavesTheResetTable : Obligations.ResetLeavesTheResetTable :=
  ⟨atReset_reset_with_draws 0, fun s => ⟨s.resetCore, rfl, atReset_reset_with_draws s.draws⟩⟩

end Sys2Proof.Machine
end

section
/-! PROOFS. The memory primitives, and a stored word read back by the fetch (spec 20). -/

namespace Sys2Proof.Machine

open Sys2Proof.Spec

/-! ### The primitives -/

/-- Settles O2: a block read answers byte a + k at place k, and the two sides of the bound are the two cases of MemRead. -/
theorem memReadReturnsTheBlockOrFaults : Obligations.MemReadReturnsTheBlockOrFaults := by
  refine fun m a n => ⟨fun h => ⟨m.readBytes a n, memRead_of_le h, m.length_readBytes a n, fun k hk => ?_⟩, memRead_of_gt⟩
  have hk' : k < (m.readBytes a n).length := by rwa [Memory.length_readBytes]
  rw [List.getElem?_eq_getElem hk', Memory.getElem_readBytes]

/-- Settles O3: a block write in bounds keeps the canonical form, and reads back as its bytes inside the block and as the
old memory outside it. -/
theorem memWriteStoresTheBlockOrFaults : Obligations.MemWriteStoresTheBlockOrFaults := by
  intro m a bs hm
  refine ⟨fun h => ⟨m.writeBytes a bs, memWrite_of_le h, Memory.wf_writeBytes h hm, fun k hk => ?_, fun c hc => ?_⟩,
    memWrite_of_gt⟩
  · rw [Memory.read_writeBytes_inside h hm hk, List.getElem?_eq_getElem hk]
  · exact Memory.read_writeBytes_outside hc

theorem toNat_wordOfBytes (hi lo : Byte) : (wordOfBytes hi lo).toNat = hi.toNat * 256 + lo.toNat :=
  toNat_append_eq hi lo

/-- Settles O1: the fetched word is the concatenation of its two bytes, the high byte first. -/
theorem fetchWordIsBigEndianAndBoundsChecked : Obligations.FetchWordIsBigEndianAndBoundsChecked :=
  fun _ _ => ⟨fun h => ⟨_, fetchWord_of_le h, toNat_wordOfBytes _ _⟩, fetchWord_of_gt⟩

/-! ### A stored word at PC -/

variable {s : State}

/-- A block store in bounds writes V0 to Vx at I and nothing else (spec 45 R194). -/
theorem exec_ldMemVx_of_le {x : Reg} (h : s.i.toNat + (x.val + 1) ≤ Config.memSize) :
    exec (.ldMemVx x) s = .next (s.setMem (s.mem.writeBytes s.i.toNat (regsUpTo s x))) := by
  change orRaise s (memWrite s.mem s.i.toNat (regsUpTo s x)) _ = _
  rw [memWrite_of_le (by rwa [length_regsUpTo]), orRaise_ok]

/-- After a block store of V0 to Vx at address a, the byte at a + k is Vk (spec 45 R194). -/
theorem Memory.read_writeBytes_regsUpTo {m : Memory} {a : Nat} {x r : Reg} (hm : m.wf = true)
    (h : a + (x.val + 1) ≤ Config.memSize) (hr : r ≤ x) :
    (m.writeBytes a (regsUpTo s x)).read (a + r.val) = s.reg r := by
  have hlen : a + (regsUpTo s x).length ≤ Config.memSize := by rwa [length_regsUpTo]
  have hk : r.val < (regsUpTo s x).length := by
    rw [length_regsUpTo]
    exact Nat.lt_succ_of_le hr
  rw [read_writeBytes_inside hlen hm hk, getElem_regsUpTo]

/-- A step that fetches an instruction executes it with PC advanced (spec 30 R73). -/
theorem step_of_decode {i : Instr} (hf : s.fault = none) (hb : s.pc.toNat + 2 ≤ Config.memSize)
    (hd : decode (wordAtPc s) = .instr i) : step s = exec i s.advance := by
  obtain ⟨hf', -⟩ | ⟨-, hb', -⟩ | ⟨-, -, j, hj, hs⟩ | ⟨-, -, r, hr, -⟩ := step_cases s
  · exact absurd hf hf'
  · exact absurd hb hb'.not_ge
  · cases hj.symm.trans hd
    exact hs
  · cases hr.symm.trans hd

/-- A block store of V0 and V1, at least, at PC leaves there the word of V0 and V1 (spec 20 R54, R67). -/
theorem wordAtPc_after_blockStore {x : Reg} (hm : s.mem.wf = true) (hx : 1 ≤ x.val)
    (h : s.i.toNat + (x.val + 1) ≤ Config.memSize) (hpc : s.pc = s.i) :
    wordAtPc (s.setMem (s.mem.writeBytes s.i.toNat (regsUpTo s x))) = wordOfBytes (s.reg 0) (s.reg 1) := by
  have h0 := Memory.read_writeBytes_regsUpTo (s := s) hm h (Fin.zero_le x)
  have h1 := Memory.read_writeBytes_regsUpTo (s := s) (r := 1) hm h hx
  rw [wordAtPc, State.setMem_mem, State.setMem_pc, hpc]
  exact congrArg₂ wordOfBytes h0 h1

/-- Settles O47: the word the block store leaves at PC is the one the next step fetches. -/
theorem storedWordIsExecutedByTheNextStep : Obligations.StoredWordIsExecutedByTheNextStep := by
  intro s x i hf hm hx hb hpc hd
  refine ⟨_, exec_ldMemVx_of_le hb, step_of_decode hf ?_ ?_⟩
  · rw [State.setMem_pc, hpc, memSize_eq]
    omega
  · rw [wordAtPc_after_blockStore hm hx hb hpc, hd]

end Sys2Proof.Machine
end

section
/-! PROOFS. The decoder, the encoder and the opcode table say the same of every word (spec 30 section 4): a word is read as
an instruction exactly when the encoder writes it for that instruction, and exactly when the instruction's row matches. -/

namespace Sys2Proof

/-! ### A word and its fields -/

/-- The word made of a leading nibble and 12 bits is the one word with these fields. -/
theorem encNNN_eq_iff {op : Fin 16} {nnn : Addr12} {w : Word} : encNNN op nnn = w ↔ opOf w = op ∧ nnnOf w = nnn := by
  constructor
  · rintro rfl
    exact ⟨opOf_encNNN op nnn, nnnOf_encNNN op nnn⟩
  · rintro ⟨rfl, rfl⟩
    exact encNNN_fields w

/-- The word made of two nibbles and a byte is the one word with these fields. -/
theorem encXNN_eq_iff {op : Fin 16} {x : Reg} {nn : Byte} {w : Word} :
    encXNN op x nn = w ↔ opOf w = op ∧ xOf w = x ∧ nnOf w = nn := by
  constructor
  · rintro rfl
    exact ⟨opOf_encXNN op x nn, xOf_encXNN op x nn, nnOf_encXNN op x nn⟩
  · rintro ⟨rfl, rfl, rfl⟩
    exact encXNN_fields w

/-- The word made of four nibbles is the one word with these fields. -/
theorem encXYN_eq_iff {op : Fin 16} {x y : Reg} {n : Fin 16} {w : Word} :
    encXYN op x y n = w ↔ opOf w = op ∧ xOf w = x ∧ yOf w = y ∧ nOf w = n := by
  constructor
  · rintro rfl
    exact ⟨opOf_encXYN op x y n, xOf_encXYN op x y n, yOf_encXYN op x y n, nOf_encXYN op x y n⟩
  · rintro ⟨rfl, rfl, rfl, rfl⟩
    exact encXYN_fields w

/-- In group 0, SYS is well-formed exactly for the words that are not CLS or RET (spec 30 R74). -/
theorem wellFormed_sys_iff {w : Word} (hop : opOf w = 0x0) :
    (Instr.sys (nnnOf w)).WellFormed ↔ w ≠ 0x00E0#16 ∧ w ≠ 0x00EE#16 := by
  have key (c : Addr12) : nnnOf w = c ↔ w = encNNN 0x0 c := by
    rw [eq_comm (a := w), encNNN_eq_iff]
    exact (and_iff_right hop).symm
  have hcls : nnnOf w = 0x0E0#12 ↔ w = 0x00E0#16 := key 0x0E0
  have hret : nnnOf w = 0x0EE#12 ↔ w = 0x00EE#16 := key 0x0EE
  simp [Instr.WellFormed, Instr.wellFormed, hcls, hret]

/-! ### Decode of encode -/

theorem decode_encode_sys {nnn : Addr12} (hwf : (Instr.sys nnn).WellFormed) :
    decode (encode (.sys nnn)) = .instr (.sys nnn) := by
  obtain ⟨hcls, hret⟩ := (wellFormed_sys_iff (opOf_encNNN 0x0 nnn)).mp (by rwa [nnnOf_encNNN])
  simp [encode, decode, decode0, hcls, hret]

/-- The decoder reads back every well-formed instruction. The leading nibble selects it, and in the groups 8, E and F its
trailing nibble or low byte (spec 30 R76, R77). -/
theorem decode_encode {i : Instr} (hwf : i.WellFormed) : decode (encode i) = .instr i := by
  cases i with
  | sys nnn => exact decode_encode_sys hwf
  | cls | ret => rfl
  | jp nnn | call nnn | ldI nnn | jpV0 nnn => simp [encode, decode]
  | seImm x nn | sneImm x nn | ldImm x nn | addImm x nn | rnd x nn => simp [encode, decode]
  | seReg x y | sneReg x y | drw x y n => simp [encode, decode]
  | ldReg x y | orReg x y | andReg x y | xorReg x y | addReg x y | sub x y | shr x y | subn x y | shl x y =>
    simp [encode, decode, decode8]
  | skp x | sknp x => simp [encode, decode, decodeE]
  | ldVxDt x | ldVxK x | ldDtVx x | ldStVx x | addI x | ldF x | ldB x | ldMemVx x | ldVxMem x =>
    simp [encode, decode, decodeF]

/-- The decoder on bytes reads an instruction's two bytes as its word (spec 30 R70). -/
theorem decodeBytes_encodeBytes_append (i : Instr) (rest : List Byte) :
    decodeBytes (encodeBytes i ++ rest) = (decode (encode i), rest) :=
  congrArg (fun w => (decode w, rest)) (wordOfBytes_extract (encode i))

/-- Settles O8, on the word and on its bytes. -/
theorem decodeOfEncodeIsTheInstruction : Obligations.DecodeOfEncodeIsTheInstruction := by
  refine fun i hwf => ⟨decode_encode hwf, fun rest => ?_⟩
  rw [decodeBytes_encodeBytes_append, decode_encode hwf]

/-! ### Encode of decode -/

/-- The instruction is well-formed and the encoder writes the word for it. -/
def Encodes (i : Instr) (w : Word) : Prop := i.WellFormed ∧ encode i = w

variable {w : Word} {i : Instr}

theorem encodes_of_decode0 (hop : opOf w = 0x0) (h : decode0 w = .instr i) : Encodes i w := by
  unfold decode0 at h
  split_ifs at h with hcls hret <;> cases h
  · exact ⟨rfl, hcls.symm⟩
  · exact ⟨rfl, hret.symm⟩
  · exact ⟨(wellFormed_sys_iff hop).mpr ⟨hcls, hret⟩, encNNN_eq_iff.mpr ⟨hop, rfl⟩⟩

theorem encodes_of_decode8 (hop : opOf w = 0x8) (h : decode8 w = .instr i) : Encodes i w := by
  unfold decode8 at h
  split at h <;> cases h
  all_goals exact ⟨rfl, encXYN_eq_iff.mpr ⟨hop, rfl, rfl, ‹_›⟩⟩

theorem encodes_of_decodeE (hop : opOf w = 0xE) (h : decodeE w = .instr i) : Encodes i w := by
  unfold decodeE at h
  split_ifs at h <;> cases h
  all_goals exact ⟨rfl, encXNN_eq_iff.mpr ⟨hop, rfl, ‹_›⟩⟩

theorem encodes_of_decodeF (hop : opOf w = 0xF) (h : decodeF w = .instr i) : Encodes i w := by
  unfold decodeF at h
  split_ifs at h <;> cases h
  all_goals exact ⟨rfl, encXNN_eq_iff.mpr ⟨hop, rfl, ‹_›⟩⟩

theorem encodes_of_decode (h : decode w = .instr i) : Encodes i w := by
  unfold decode at h
  split at h
  next hop => exact encodes_of_decode0 hop h
  next hop => cases h; exact ⟨rfl, encNNN_eq_iff.mpr ⟨hop, rfl⟩⟩
  next hop => cases h; exact ⟨rfl, encNNN_eq_iff.mpr ⟨hop, rfl⟩⟩
  next hop => cases h; exact ⟨rfl, encXNN_eq_iff.mpr ⟨hop, rfl, rfl⟩⟩
  next hop => cases h; exact ⟨rfl, encXNN_eq_iff.mpr ⟨hop, rfl, rfl⟩⟩
  next hop =>
    split_ifs at h with hn
    · cases h
      exact ⟨rfl, encXYN_eq_iff.mpr ⟨hop, rfl, rfl, hn⟩⟩
  next hop => cases h; exact ⟨rfl, encXNN_eq_iff.mpr ⟨hop, rfl, rfl⟩⟩
  next hop => cases h; exact ⟨rfl, encXNN_eq_iff.mpr ⟨hop, rfl, rfl⟩⟩
  next hop => exact encodes_of_decode8 hop h
  next hop =>
    split_ifs at h with hn
    · cases h
      exact ⟨rfl, encXYN_eq_iff.mpr ⟨hop, rfl, rfl, hn⟩⟩
  next hop => cases h; exact ⟨rfl, encNNN_eq_iff.mpr ⟨hop, rfl⟩⟩
  next hop => cases h; exact ⟨rfl, encNNN_eq_iff.mpr ⟨hop, rfl⟩⟩
  next hop => cases h; exact ⟨rfl, encXNN_eq_iff.mpr ⟨hop, rfl, rfl⟩⟩
  next hop => cases h; exact ⟨rfl, encXYN_eq_iff.mpr ⟨hop, rfl, rfl, rfl⟩⟩
  next hop => exact encodes_of_decodeE hop h
  next =>
    have hop : opOf w = 0xF := by grind
    exact encodes_of_decodeF hop h

/-- Settles O9, by the decoder's groups. -/
theorem encodeOfDecodeIsTheWord : Obligations.EncodeOfDecodeIsTheWord :=
  fun _ _ => encodes_of_decode

end Sys2Proof
end

section
/-! PROOFS. The opcode table and the decoder (spec 30 R74 to R78): the fixed bits of a row determine every part of a word
but the operands, so a word that matches the row is the encoding of the row's instruction with operands from the word. -/

namespace Sys2Proof

variable {w v : Word} {op n : Fin 16} {nn : Byte} {i : Instr} {r : OpcodeRow}

/-! ### The bits a mask fixes -/

theorem opOf_of_and_F000 (h : w &&& 0xF000#16 = encNNN op 0) : opOf w = op := by
  rw [← opOf_encNNN op 0, ← h, and_F000, opOf_encNNN]

theorem encNNN_of_and_F000 (h : w &&& 0xF000#16 = encNNN op 0) : encNNN op (nnnOf w) = w :=
  encNNN_eq_iff.mpr ⟨opOf_of_and_F000 h, rfl⟩

theorem encXNN_of_and_F000 (h : w &&& 0xF000#16 = encNNN op 0) : encXNN op (xOf w) (nnOf w) = w :=
  encXNN_eq_iff.mpr ⟨opOf_of_and_F000 h, rfl, rfl⟩

theorem encXYN_of_and_F000 (h : w &&& 0xF000#16 = encNNN op 0) : encXYN op (xOf w) (yOf w) (nOf w) = w :=
  encXYN_eq_iff.mpr ⟨opOf_of_and_F000 h, rfl, rfl, rfl⟩

theorem encXYN_of_and_F00F (h : w &&& 0xF00F#16 = encXYN op 0 0 n) : encXYN op (xOf w) (yOf w) n = w := by
  rw [and_F00F, encXYN_eq_iff, opOf_encXYN, nOf_encXYN] at h
  obtain ⟨hop, -, -, hn⟩ := h
  exact encXYN_eq_iff.mpr ⟨hop.symm, rfl, rfl, hn.symm⟩

theorem encXNN_of_and_F0FF (h : w &&& 0xF0FF#16 = encXNN op 0 nn) : encXNN op (xOf w) nn = w := by
  rw [and_F0FF, encXNN_eq_iff, opOf_encXNN, nnOf_encXNN] at h
  obtain ⟨hop, -, hnn⟩ := h
  exact encXNN_eq_iff.mpr ⟨hop.symm, rfl, hnn.symm⟩

theorem eq_of_and_FFFF (h : w &&& 0xFFFF#16 = v) : v = w := by
  rw [← h, show (0xFFFF#16) = BitVec.allOnes 16 from rfl, BitVec.and_allOnes]

/-! ### Rows and instructions -/

theorem OpcodeRow.matches_iff : r.matches w = true ↔ w &&& r.mask = r.value ∧ w ∉ r.exclude := by
  simp [OpcodeRow.matches]

/-- A word that matches an instruction's row is the encoding of an instruction of that row: the one whose operands are the
word's own fields. -/
theorem exists_encodes_of_mask (hx : w ∉ i.row.exclude) (h : w &&& i.row.mask = i.row.value) :
    ∃ j : Instr, j.row = i.row ∧ Encodes j w := by
  cases i with
  | sys _ =>
    have hne : w ≠ 0x00E0#16 ∧ w ≠ 0x00EE#16 := by simpa [Instr.row] using hx
    exact ⟨.sys (nnnOf w), rfl, (wellFormed_sys_iff (opOf_of_and_F000 h)).mpr hne, encNNN_of_and_F000 h⟩
  | cls => exact ⟨.cls, rfl, rfl, eq_of_and_FFFF h⟩
  | ret => exact ⟨.ret, rfl, rfl, eq_of_and_FFFF h⟩
  | jp _ => exact ⟨.jp (nnnOf w), rfl, rfl, encNNN_of_and_F000 h⟩
  | call _ => exact ⟨.call (nnnOf w), rfl, rfl, encNNN_of_and_F000 h⟩
  | seImm _ _ => exact ⟨.seImm (xOf w) (nnOf w), rfl, rfl, encXNN_of_and_F000 h⟩
  | sneImm _ _ => exact ⟨.sneImm (xOf w) (nnOf w), rfl, rfl, encXNN_of_and_F000 h⟩
  | seReg _ _ => exact ⟨.seReg (xOf w) (yOf w), rfl, rfl, encXYN_of_and_F00F h⟩
  | ldImm _ _ => exact ⟨.ldImm (xOf w) (nnOf w), rfl, rfl, encXNN_of_and_F000 h⟩
  | addImm _ _ => exact ⟨.addImm (xOf w) (nnOf w), rfl, rfl, encXNN_of_and_F000 h⟩
  | ldReg _ _ => exact ⟨.ldReg (xOf w) (yOf w), rfl, rfl, encXYN_of_and_F00F h⟩
  | orReg _ _ => exact ⟨.orReg (xOf w) (yOf w), rfl, rfl, encXYN_of_and_F00F h⟩
  | andReg _ _ => exact ⟨.andReg (xOf w) (yOf w), rfl, rfl, encXYN_of_and_F00F h⟩
  | xorReg _ _ => exact ⟨.xorReg (xOf w) (yOf w), rfl, rfl, encXYN_of_and_F00F h⟩
  | addReg _ _ => exact ⟨.addReg (xOf w) (yOf w), rfl, rfl, encXYN_of_and_F00F h⟩
  | sub _ _ => exact ⟨.sub (xOf w) (yOf w), rfl, rfl, encXYN_of_and_F00F h⟩
  | shr _ _ => exact ⟨.shr (xOf w) (yOf w), rfl, rfl, encXYN_of_and_F00F h⟩
  | subn _ _ => exact ⟨.subn (xOf w) (yOf w), rfl, rfl, encXYN_of_and_F00F h⟩
  | shl _ _ => exact ⟨.shl (xOf w) (yOf w), rfl, rfl, encXYN_of_and_F00F h⟩
  | sneReg _ _ => exact ⟨.sneReg (xOf w) (yOf w), rfl, rfl, encXYN_of_and_F00F h⟩
  | ldI _ => exact ⟨.ldI (nnnOf w), rfl, rfl, encNNN_of_and_F000 h⟩
  | jpV0 _ => exact ⟨.jpV0 (nnnOf w), rfl, rfl, encNNN_of_and_F000 h⟩
  | rnd _ _ => exact ⟨.rnd (xOf w) (nnOf w), rfl, rfl, encXNN_of_and_F000 h⟩
  | drw _ _ _ => exact ⟨.drw (xOf w) (yOf w) (nOf w), rfl, rfl, encXYN_of_and_F000 h⟩
  | skp _ => exact ⟨.skp (xOf w), rfl, rfl, encXNN_of_and_F0FF h⟩
  | sknp _ => exact ⟨.sknp (xOf w), rfl, rfl, encXNN_of_and_F0FF h⟩
  | ldVxDt _ => exact ⟨.ldVxDt (xOf w), rfl, rfl, encXNN_of_and_F0FF h⟩
  | ldVxK _ => exact ⟨.ldVxK (xOf w), rfl, rfl, encXNN_of_and_F0FF h⟩
  | ldDtVx _ => exact ⟨.ldDtVx (xOf w), rfl, rfl, encXNN_of_and_F0FF h⟩
  | ldStVx _ => exact ⟨.ldStVx (xOf w), rfl, rfl, encXNN_of_and_F0FF h⟩
  | addI _ => exact ⟨.addI (xOf w), rfl, rfl, encXNN_of_and_F0FF h⟩
  | ldF _ => exact ⟨.ldF (xOf w), rfl, rfl, encXNN_of_and_F0FF h⟩
  | ldB _ => exact ⟨.ldB (xOf w), rfl, rfl, encXNN_of_and_F0FF h⟩
  | ldMemVx _ => exact ⟨.ldMemVx (xOf w), rfl, rfl, encXNN_of_and_F0FF h⟩
  | ldVxMem _ => exact ⟨.ldVxMem (xOf w), rfl, rfl, encXNN_of_and_F0FF h⟩

/-- The table lists rows of instructions only. -/
theorem exists_row_eq_of_mem (hr : r ∈ opcodeTable) : ∃ i : Instr, i.row = r := by
  have h : ∀ r ∈ opcodeTable, ∃ i : Instr, i.row = r := by simp [opcodeTable]
  exact h r hr

/-- The table lists the row of every instruction. -/
theorem row_mem_opcodeTable (i : Instr) : i.row ∈ opcodeTable := by
  cases i <;> exact List.mem_of_elem_eq_true rfl

/-- A word that matches a row of the table decodes to an instruction of that row. -/
theorem exists_decode_of_matches (hr : r ∈ opcodeTable) (hm : r.matches w = true) :
    ∃ i, decode w = .instr i ∧ i.row = r := by
  obtain ⟨i, rfl⟩ := exists_row_eq_of_mem hr
  obtain ⟨hmask, hx⟩ := OpcodeRow.matches_iff.mp hm
  obtain ⟨j, hrow, hwf, rfl⟩ := exists_encodes_of_mask hx hmask
  exact ⟨j, decode_encode hwf, hrow⟩

/-- A word that decodes to an instruction matches the instruction's row. -/
theorem row_matches_of_decode (h : decode w = .instr i) : i.row.matches w = true := by
  obtain ⟨hwf, rfl⟩ := encodes_of_decode h
  exact Laws.rowMatch_every i hwf

/-- A word that decodes to an instruction matches no other row of the table. -/
theorem eq_row_of_matches (h : decode w = .instr i) (hr : r ∈ opcodeTable) (hm : r.matches w = true) : r = i.row := by
  obtain ⟨j, hj, rfl⟩ := exists_decode_of_matches hr hm
  cases hj.symm.trans h
  rfl

/-- The words the decoder reads are the words that match a row of the table (spec 30 R74). -/
theorem exists_decode_iff : (∃ i, decode w = .instr i) ↔ ∃ r ∈ opcodeTable, r.matches w = true := by
  constructor
  · rintro ⟨i, h⟩
    exact ⟨i.row, row_mem_opcodeTable i, row_matches_of_decode h⟩
  · rintro ⟨r, hr, hm⟩
    obtain ⟨i, h, -⟩ := exists_decode_of_matches hr hm
    exact ⟨i, h⟩

/-- Settles O5: a word that matches a row is an encoding, and the decoder reads it back. -/
theorem decodeFollowsTheOpcodeTable : Obligations.DecodeFollowsTheOpcodeTable :=
  fun _ => ⟨exists_decode_iff, fun i h => ⟨row_mem_opcodeTable i, row_matches_of_decode h, fun _ => eq_row_of_matches h⟩⟩

/-- Settles O6: two rows that match a word are both the row of the instruction it decodes to, and no row is listed twice. -/
theorem opcodeTableHasThirtyFiveDisjointRows : Obligations.OpcodeTableHasThirtyFiveDisjointRows := by
  have hnodup : opcodeTable.Pairwise (· ≠ ·) := by decide
  refine ⟨rfl, fun w => hnodup.imp_of_mem fun hr hr' hne ⟨hm, hm'⟩ => hne ?_⟩
  obtain ⟨i, h, hrow⟩ := exists_decode_of_matches hr hm
  rw [← hrow, eq_row_of_matches h hr' hm']

/-- Settles O10: seven of the words are encodings, and 0x5121 has a trailing nibble that no row of group 5 has. -/
theorem sampleWordsDecodeAsTheSpecSays : Obligations.SampleWordsDecodeAsTheSpecSays :=
  ⟨decode_encode (i := .cls) rfl, decode_encode (i := .call 0x300) rfl, decode_encode (i := .shl 3 4) rfl,
    decode_encode (i := .drw 1 2 5) rfl, decode_encode (i := .skp 4) rfl, decode_encode (i := .ldVxMem 2) rfl,
    decode_encode (i := .sys 0x0E1) rfl, by decide⟩

end Sys2Proof
end

section
/-! PROOFS. The sequence of a step (spec 30 R73): what a step does in each of its cases, and that it always answers a next
state. -/

namespace Sys2Proof.Machine

open Sys2Proof.Spec

variable {s : State}

/-- A faulted CORE does nothing (spec 60 R235). -/
theorem step_of_faulted (hf : s.fault ≠ none) : step s = .next s := by
  obtain ⟨-, hs⟩ | ⟨hf', -⟩ | ⟨hf', -⟩ | ⟨hf', -⟩ := step_cases s
  · exact hs
  all_goals exact absurd hf' hf

/-- A fetch that leaves memory raises its fault (spec 20 R54). -/
theorem step_of_pc_gt (hf : s.fault = none) (hb : Config.memSize < s.pc.toNat + 2) :
    step s = .next (s.raiseFetch (.bounds .fetch s.pc.toNat 2)) := by
  obtain ⟨hf', -⟩ | ⟨-, -, hs⟩ | ⟨-, hb', -⟩ | ⟨-, hb', -⟩ := step_cases s
  · exact absurd hf hf'
  · exact hs
  all_goals exact absurd hb hb'.not_gt

/-- A step that fetches an unrecognized word advances PC (spec 30 R75). -/
theorem step_of_reject {r : DecodeReject} (hf : s.fault = none) (hb : s.pc.toNat + 2 ≤ Config.memSize)
    (hd : decode (wordAtPc s) = .reject r) : step s = .next s.advance := by
  obtain ⟨hf', -⟩ | ⟨-, hb', -⟩ | ⟨-, -, i, hi, -⟩ | ⟨-, -, -, -, hs⟩ := step_cases s
  · exact absurd hf hf'
  · exact absurd hb hb'.not_ge
  · cases hi.symm.trans hd
  · exact hs

/-- A fetch fault is recorded and nothing else changes, PC included (spec 60 R217). -/
theorem faultsWith_raiseFetch (hf : s.fault = none) (f : Fault) : FaultsWith f s (s.raiseFetch f) :=
  ⟨⟨⟨f, some s.pc⟩, by simp [hf], rfl⟩, by constructor <;> simp⟩

/-- The advance changes PC and nothing else. -/
theorem frame_advance (s : State) : Frame { pc := true } s s.advance := by
  constructor <;> simp

/-- Settles O11, one lemma for each case of the step. -/
theorem stepRunsTheDecodedInstruction : Obligations.StepRunsTheDecodedInstruction :=
  fun _ => ⟨step_of_faulted, fun hf hb => ⟨_, step_of_pc_gt hf hb, faultsWith_raiseFetch hf _⟩,
    fun _ => step_of_decode, fun _ => step_of_reject⟩

/-- Settles O7: a word that matches no row is one the decoder rejects, so the step is the advance alone. -/
theorem unrecognizedWordIsANoOp : Obligations.UnrecognizedWordIsANoOp := by
  intro s hf hb hno
  cases hd : decode (wordAtPc s) with
  | instr i =>
    obtain ⟨r, hr, hm⟩ := exists_decode_iff.mp ⟨i, hd⟩
    exact absurd hm (by simp [hno r hr])
  | reject r => exact ⟨s.advance, step_of_reject hf hb hd, s.advance_pc, frame_advance s⟩

/-! ### Every step answers a next state -/

/-- An access that faults is a next state too: the one with its fault recorded (spec 60 R216). -/
theorem exists_orRaise_eq_next {α : Type} (s : State) (r : Except Fault α) (k : α → State) :
    ∃ t, orRaise s r k = .next t := by
  cases r with
  | ok a => exact ⟨k a, rfl⟩
  | error f => exact ⟨s.raise f, rfl⟩

/-- No instruction traps, halts or is refused: the ones that can fault record it, LD Vx, K rewinds or takes a key, and every
other one has a single outcome. -/
theorem exists_exec_eq_next (i : Instr) (s : State) : ∃ t, exec i s = .next t := by
  cases i with
  | ret | call | drw | skp | sknp | ldB | ldMemVx | ldVxMem => exact exists_orRaise_eq_next s _ _
  | ldVxK x =>
    simp only [exec, execLdVxK]
    cases s.lowestKey with
    | none => exact ⟨s.rewind, rfl⟩
    | some k => exact ⟨s.setReg x (BitVec.ofNat 8 k.val), rfl⟩
  | _ => exact ⟨_, rfl⟩

/-- Settles O12: each of the four cases of a step answers a next state. -/
theorem everyStepAnswersANextState : Obligations.EveryStepAnswersANextState := by
  intro s
  obtain ⟨-, hs⟩ | ⟨-, -, hs⟩ | ⟨-, -, i, -, hs⟩ | ⟨-, -, -, -, hs⟩ := step_cases s <;> rw [hs]
  · exact ⟨s, rfl⟩
  · exact ⟨_, rfl⟩
  · exact exists_exec_eq_next i s.advance
  · exact ⟨s.advance, rfl⟩

end Sys2Proof.Machine
end

section
/-! PROOFS. Control flow (spec 41): what each transfer and skip writes, and its frame. PC is already advanced here. -/

namespace Sys2Proof.Machine

open Sys2Proof.Spec

variable {s : State}

/-! ### Frames -/

/-- What changes nothing meets every frame. -/
theorem frame_refl (c : MayChange) (s : State) : Frame c s s := by
  constructor <;> intros <;> rfl

/-- An execution fault is recorded and nothing else changes (spec 60 R217). -/
theorem faultsWith_raise (hf : s.fault = none) (f : Fault) : FaultsWith f s (s.raise f) :=
  ⟨⟨⟨f, some (s.pc - 2)⟩, by simp [hf], rfl⟩, by constructor <;> simp⟩

/-- A jump changes PC and nothing else. -/
theorem frame_setPc (s : State) (w : Word) : Frame { pc := true } s (s.setPc w) := by
  constructor <;> simp

/-- A conditional skip changes PC at most. -/
theorem frame_skipIf (s : State) (c : Bool) : Frame { pc := true } s (s.skipIf c) := by
  constructor <;> simp

/-! ### The transfers -/

/-- Settles O22: SYS answers the state it was given. -/
theorem sysChangesNothing : Obligations.SysChangesNothing :=
  fun s _ => ⟨s, rfl, frame_refl _ s⟩

/-- Settles O24: the target is the address field, zero-extended. -/
theorem jpSetsPcToItsAddress : Obligations.JpSetsPcToItsAddress :=
  fun s nnn => ⟨_, rfl, zext16_toNat nnn, frame_setPc s _⟩

/-- Settles O28: the sum is at most 0xFFF + 0xFF, so 16 bits hold it. -/
theorem jpV0AddsV0Unmasked : Obligations.JpV0AddsV0Unmasked :=
  fun s nnn => ⟨_, rfl, offsetTarget_toNat s nnn, frame_setPc s _⟩

/-! ### Calls and returns -/

/-- RET with SP = k + 1 goes to slot k and leaves it as it is (decision D29, log 14). -/
theorem exec_ret_of_sp_eq {k : Fin 16} (h : s.sp.val = k.val + 1) :
    exec .ret s = .next ({ s with sp := k.castSucc }.setPc s.stack[k]) := by
  change orRaise s s.pop _ = _
  rw [State.pop_of_pos (by omega), orRaise_ok]
  simp [h, Fin.castSucc, Fin.castAdd, Fin.castLE]

theorem exec_ret_empty (h : s.sp.val = 0) : exec .ret s = .next (s.raise (.stack .underflow)) := by
  change orRaise s s.pop _ = _
  rw [State.pop_empty h, orRaise_error]

/-- CALL with SP = k puts PC into slot k. -/
theorem exec_call_of_sp_eq {k : Fin 16} (h : s.sp.val = k.val) (nnn : Addr12) :
    exec (.call nnn) s = .next ({ s with stack := s.stack.set k s.pc, sp := k.succ }.setPc (zext16 nnn)) := by
  change orRaise s (s.push s.pc) _ = _
  rw [State.push_of_lt (by omega), orRaise_ok]
  simp [h, Fin.succ]

theorem exec_call_full (h : s.sp.val = 16) (nnn : Addr12) :
    exec (.call nnn) s = .next (s.raise (.stack .overflow)) := by
  change orRaise s (s.push s.pc) _ = _
  rw [State.push_full h, orRaise_error]

/-- Settles O23: the pop has a slot to read unless SP = 0. -/
theorem retPopsTheReturnAddress : Obligations.RetPopsTheReturnAddress := by
  refine fun s => ⟨fun k h => ⟨_, exec_ret_of_sp_eq h, rfl, rfl, ?_⟩,
    fun h hf => ⟨_, exec_ret_empty h, faultsWith_raise hf _⟩⟩
  constructor <;> simp [State.reg]

/-- Settles O25: the push has a free slot unless SP = 16, and writes no other slot. -/
theorem callPushesTheReturnAddress : Obligations.CallPushesTheReturnAddress := by
  refine fun s nnn => ⟨fun k h => ⟨_, exec_call_of_sp_eq h nnn, ?_, rfl, zext16_toNat nnn, ?_⟩,
    fun h hf => ⟨_, exec_call_full h nnn, faultsWith_raise hf _⟩⟩
  · exact Vector.getElem_set_self k.isLt
  · constructor
    case slots =>
      intro j hj
      have hne : k.val ≠ j.val := by simpa [eq_comm] using hj
      exact Vector.getElem_set_ne k.isLt j.isLt hne
    all_goals simp [State.reg]

/-! ### The skips -/

/-- PC after a conditional skip, modulo 65536 (spec 41 R109). -/
theorem State.toNat_pc_skipIf (s : State) (c : Bool) :
    (s.skipIf c).pc.toNat = if c then (s.pc.toNat + 2) % 65536 else s.pc.toNat := by
  cases c <;> rfl

/-- SE takes the skip on equal bytes. -/
theorem State.toNat_pc_skipIf_beq (s : State) (a b : Byte) :
    (s.skipIf (a == b)).pc.toNat = if a = b then (s.pc.toNat + 2) % 65536 else s.pc.toNat := by
  simp only [toNat_pc_skipIf, beq_iff_eq]

/-- SNE takes the skip on different bytes. -/
theorem State.toNat_pc_skipIf_bne (s : State) (a b : Byte) :
    (s.skipIf (a != b)).pc.toNat = if a = b then s.pc.toNat else (s.pc.toNat + 2) % 65536 := by
  simp only [toNat_pc_skipIf, bne_iff_ne, ite_not]

/-- Settles O26: the register is compared with the immediate. -/
theorem immediateSkipsFollowTheComparison : Obligations.ImmediateSkipsFollowTheComparison :=
  fun s x nn => ⟨⟨_, rfl, s.toNat_pc_skipIf_beq (s.reg x) nn, frame_skipIf s _⟩,
    ⟨_, rfl, s.toNat_pc_skipIf_bne (s.reg x) nn, frame_skipIf s _⟩⟩

/-- Settles O27: the two registers are compared. -/
theorem registerSkipsFollowTheComparison : Obligations.RegisterSkipsFollowTheComparison :=
  fun s x y => ⟨⟨_, rfl, s.toNat_pc_skipIf_beq (s.reg x) (s.reg y), frame_skipIf s _⟩,
    ⟨_, rfl, s.toNat_pc_skipIf_bne (s.reg x) (s.reg y), frame_skipIf s _⟩⟩

end Sys2Proof.Machine
end

section
/-! PROOFS. The arithmetic/logic unit (spec 42): the value of each result and flag, and what a register write leaves
unchanged. The flag is written last, so VF holds it also when VF is the destination. -/

namespace Sys2Proof.Machine

open Sys2Proof.Spec

/-! ### Results and flags as numbers -/

theorem toNat_sumByte (a b : Byte) : (sumByte a b).toNat = (a.toNat + b.toNat) % 256 := BitVec.toNat_ofNat _ _

/-- The exact difference is at least -255, so one addition of 256 makes it a natural number. -/
theorem toNat_diffByte (a b : Byte) : (diffByte a b).toNat = (a.toNat + 256 - b.toNat) % 256 := by
  have ha := a.isLt
  have hb := b.isLt
  rw [diffByte, BitVec.toNat_ofInt]
  omega

theorem toNat_flagByte (p : Prop) [Decidable p] : (flagByte (decide p)).toNat = if p then 1 else 0 := by
  by_cases hp : p <;> simp [flagByte, hp]

theorem toNat_carry (a b : Byte) : (carry a b).toNat = if a.toNat + b.toNat > 255 then 1 else 0 := toNat_flagByte _

theorem toNat_notBorrow (a b : Byte) : (notBorrow a b).toNat = if a.toNat ≥ b.toNat then 1 else 0 := toNat_flagByte _

theorem toNat_ushiftRight_one (a : Byte) : (a >>> 1).toNat = a.toNat / 2 := by
  rw [BitVec.toNat_ushiftRight, Nat.shiftRight_eq_div_pow, pow_one]

theorem toNat_shiftLeft_one (a : Byte) : (a <<< 1).toNat = a.toNat * 2 % 256 := by
  rw [BitVec.toNat_shiftLeft, Nat.shiftLeft_eq, pow_one]

theorem toNat_lowBit (a : Byte) : (lowBit a).toNat = a.toNat % 2 :=
  (BitVec.toNat_and a 1).trans (Nat.and_one_is_mod a.toNat)

/-- Old bit 7 is the low bit of what seven right shifts leave. -/
theorem toNat_highBit (a : Byte) : (highBit a).toNat = a.toNat / 128 := by
  have ha := a.isLt
  have hlow : (highBit a).toNat = (a >>> 7).toNat % 2 := toNat_lowBit (a >>> 7)
  rw [hlow, BitVec.toNat_ushiftRight, Nat.shiftRight_eq_div_pow]
  omega

/-! ### Register writes and their frames -/

theorem State.setReg_reg_self (s : State) (x : Reg) (b : Byte) : (s.setReg x b).reg x = b :=
  (s.setReg_reg x x b).trans (if_pos rfl)

/-- A write of one register changes that register and nothing else. -/
theorem frame_setReg (s : State) (x : Reg) (b : Byte) : Frame { regs := [x] } s (s.setReg x b) := by
  constructor
  case regs =>
    intro r hr
    have hne : r ≠ x := by simpa using hr
    exact (s.setReg_reg x r b).trans (if_neg hne)
  all_goals simp

/-- A draw changes its destination and the count of draws. -/
theorem frame_rnd (s : State) (r : Byte) (x : Reg) (nn : Byte) :
    Frame { regs := [x], draws := true } s (s.rndWith r x nn).countDraw := by
  have hset : Frame { regs := [x] } s (s.rndWith r x nn) := frame_setReg s x (r &&& nn)
  exact { hset with draws := nofun }

/-- A flag instruction changes its destination and VF. -/
theorem frame_withFlag (s : State) (op flag : Byte → Byte → Byte) (x y : Reg) :
    Frame { regs := [x, vf] } s (s.withFlag .flagLast op flag x y) := by
  obtain ⟨v, hv⟩ := s.withFlag_frame .flagLast op flag x y
  constructor
  case regs =>
    intro r hr
    obtain ⟨hx, hvf⟩ : r ≠ x ∧ r ≠ vf := by simpa using hr
    exact (s.withFlag_reg op flag x y r).trans ((if_neg hvf).trans (if_neg hx))
  all_goals simp [hv]

theorem State.withFlag_reg_vf (s : State) (op flag : Byte → Byte → Byte) (x y : Reg) :
    (s.withFlag .flagLast op flag x y).reg vf = flag (s.reg x) (s.reg y) :=
  (s.withFlag_reg op flag x y vf).trans (if_pos rfl)

theorem State.withFlag_reg_of_ne_vf {x : Reg} (hx : x ≠ vf) (s : State) (op flag : Byte → Byte → Byte) (y : Reg) :
    (s.withFlag .flagLast op flag x y).reg x = op (s.reg x) (s.reg y) :=
  (s.withFlag_reg op flag x y x).trans ((if_neg hx).trans (if_pos rfl))

/-- What a flag instruction writes, `res` and `fl` being its result and its flag as numbers. -/
theorem withFlag_writes {op flag : Byte → Byte → Byte} {res fl : Nat} (s : State) (x y : Reg)
    (hop : (op (s.reg x) (s.reg y)).toNat = res) (hflag : (flag (s.reg x) (s.reg y)).toNat = fl) :
    (x ≠ vf → ((s.withFlag .flagLast op flag x y).reg x).toNat = res) ∧
      ((s.withFlag .flagLast op flag x y).reg vf).toNat = fl ∧
      Frame { regs := [x, vf] } s (s.withFlag .flagLast op flag x y) := by
  refine ⟨fun hx => ?_, ?_, frame_withFlag s op flag x y⟩
  · rw [State.withFlag_reg_of_ne_vf hx, hop]
  · rw [State.withFlag_reg_vf, hflag]

/-! ### The instructions that write no flag -/

/-- Settles O29: one register is written, with the immediate or with the sum modulo 256. -/
theorem immediateLoadAndAddWriteOneRegister : Obligations.ImmediateLoadAndAddWriteOneRegister := by
  refine fun s x nn => ⟨⟨_, rfl, s.setReg_reg_self x nn, frame_setReg s x _⟩, ⟨_, rfl, ?_, frame_setReg s x _⟩⟩
  rw [State.setReg_reg_self, toNat_sumByte]

/-- Settles O30: one register is written, and bit k of the result depends on bit k of each operand. -/
theorem copyAndLogicWriteOneRegister : Obligations.CopyAndLogicWriteOneRegister := by
  refine fun s x y => ⟨⟨_, rfl, s.setReg_reg_self x _, frame_setReg s x _⟩,
    ⟨_, rfl, fun k _ => ?_, frame_setReg s x _⟩, ⟨_, rfl, fun k _ => ?_, frame_setReg s x _⟩,
    ⟨_, rfl, fun k _ => ?_, frame_setReg s x _⟩⟩
  · rw [State.setReg_reg_self, BitVec.getLsbD_or]
  · rw [State.setReg_reg_self, BitVec.getLsbD_and]
  · rw [State.setReg_reg_self, BitVec.getLsbD_xor]

/-- Settles O34: the drawn byte stays the free value, and only the mask is applied to it. -/
theorem rndMasksAFreeByte : Obligations.RndMasksAFreeByte := by
  refine fun s x nn => ⟨_, rfl, rfl, fun k _ => ?_, frame_rnd s _ x nn⟩
  rw [State.countDraw_reg, State.rndWith_reg, if_pos rfl, BitVec.getLsbD_and]

/-! ### The instructions that write a flag -/

/-- Settles O31: the sum modulo 256, then the carry of the exact sum. -/
theorem addWritesSumThenCarry : Obligations.AddWritesSumThenCarry :=
  fun s x y => ⟨_, rfl, withFlag_writes s x y (toNat_sumByte _ _) (toNat_carry _ _)⟩

/-- Settles O32: SUBN is SUB with the operands exchanged in the difference and in the flag. -/
theorem subtractionsWriteDifferenceThenNotBorrow : Obligations.SubtractionsWriteDifferenceThenNotBorrow :=
  fun s x y => ⟨⟨_, rfl, withFlag_writes s x y (toNat_diffByte _ _) (toNat_notBorrow _ _)⟩,
    ⟨_, rfl, withFlag_writes s x y (toNat_diffByte _ _) (toNat_notBorrow _ _)⟩⟩

/-- Settles O33: the shift by one of the old V[x], then its old bit 0 or bit 7. -/
theorem shiftsWriteResultThenBitShiftedOut : Obligations.ShiftsWriteResultThenBitShiftedOut :=
  fun s x y => ⟨⟨_, rfl, withFlag_writes s x y (toNat_ushiftRight_one _) (toNat_lowBit _)⟩,
    ⟨_, rfl, withFlag_writes s x y (toNat_shiftLeft_one _) (toNat_highBit _)⟩⟩

end Sys2Proof.Machine
end

section
/-! PROOFS. The display (spec 43): what CLS and DRW write, with their frames, and the engine's sprite as the specification
describes it. -/

namespace Sys2Proof.Machine

open Sys2Proof.Spec

variable {s : State} {x y : Reg} {n : Fin 16}

/-! ### Frames -/

/-- A new display changes the display and DIRTY. -/
theorem frame_setDisp_setDirty (s : State) (d : Display) (b : Bool) :
    Frame { disp := true, dirty := true } s ((s.setDisp d).setDirty b) := by
  constructor <;> simp

/-- A drawn sprite changes the display, DIRTY and VF. -/
theorem frame_drawSprite (s : State) (x y : Reg) (rows : List Byte) :
    Frame { regs := [vf], disp := true, dirty := true } s (s.drawSprite x y rows) := by
  constructor
  case regs =>
    intro r hr
    have hne : r ≠ vf := by simpa using hr
    exact (s.drawSprite_reg x y r rows).trans (if_neg hne)
  all_goals simp [State.drawSprite]

/-! ### CLS -/

/-- Settles O35: the new display is false everywhere. -/
theorem clsClearsTheDisplay : Obligations.ClsClearsTheDisplay :=
  fun s => ⟨_, rfl, fun y x => by simp, rfl, frame_setDisp_setDirty s _ true⟩

/-! ### DRW and its block -/

/-- A DRW whose block lies in memory draws it (spec 43 R152). -/
theorem exec_drw_of_le (h : s.i.toNat + n.val ≤ Config.memSize) :
    exec (.drw x y n) s = .next (s.drawSprite x y (s.mem.readBytes s.i.toNat n.val)) := by
  change orRaise s (memRead s.mem s.i.toNat n.val) _ = _
  rw [memRead_of_le h, orRaise_ok]

/-- A DRW whose block leaves memory raises the fault of its read (spec 43 R152). -/
theorem exec_drw_of_gt (h : Config.memSize < s.i.toNat + n.val) :
    exec (.drw x y n) s = .next (s.raise (.bounds .read s.i.toNat n.val)) := by
  change orRaise s (memRead s.mem s.i.toNat n.val) _ = _
  rw [memRead_of_gt h, orRaise_error]

/-- Settles O37: the read faults before anything is drawn. -/
theorem drwFaultsWhenItsBlockLeavesMemory : Obligations.DrwFaultsWhenItsBlockLeavesMemory :=
  fun _ _ _ _ hf hb => ⟨_, exec_drw_of_gt hb, faultsWith_raise hf _⟩

/-! ### The sprite -/

/-- A sprite has a 1 on a cell when some pixel `c` of some row `r` is 1 and falls there (spec 43 R153, R155). -/
theorem spriteOn_iff {x0 y0 cx cy : Nat} {rows : List Byte} :
    spriteOn x0 y0 rows cx cy = true ↔
      ∃ c r, c < 8 ∧ r < rows.length ∧ cx = x0 + c ∧ cy = y0 + r ∧
        spriteBit spriteBitOrder (rows.getD r 0) c = true := by
  simp only [spriteOn, Bool.and_eq_true, decide_eq_true_eq]
  constructor
  · rintro ⟨⟨⟨⟨hx, hc⟩, hy⟩, hr⟩, hbit⟩
    exact ⟨cx - x0, cy - y0, by omega, by omega, by omega, by omega, hbit⟩
  · rintro ⟨c, r, hc, hr, rfl, rfl, hbit⟩
    rw [Nat.add_sub_cancel_left, Nat.add_sub_cancel_left]
    exact ⟨⟨⟨⟨by omega, by omega⟩, by omega⟩, by omega⟩, hbit⟩

/-- Row `r` of a block that was read is the byte at `a + r`. -/
theorem Memory.getD_readBytes {m : Memory} {a n r : Nat} (hr : r < n) (d : Byte) :
    (m.readBytes a n).getD r d = m.read (a + r) := by
  have hlen : r < (m.readBytes a n).length := by rwa [length_readBytes]
  rw [List.getD_eq_getElem _ _ hlen, getElem_readBytes]

/-- The engine's sprite, drawn from the block at I with bit 7 leftmost (decision D6, log 7), is the specification's. -/
theorem spriteOn_readBytes_iff {cx : Fin 64} {cy : Fin 32} :
    spriteOn (spriteX s x) (spriteY s y) (s.mem.readBytes s.i.toNat n.val) cx cy = true ↔ spriteHas s x y n cx cy := by
  rw [spriteOn_iff, Memory.length_readBytes]
  refine exists_congr fun c => exists_congr fun r => and_congr_right fun _ => and_congr_right fun hr => ?_
  rw [Memory.getD_readBytes hr]
  rfl

/-! ### What a drawn sprite leaves -/

/-- A cell is inverted where the sprite has a 1 (spec 43 R156). -/
theorem State.drawSprite_cell (s : State) (x y : Reg) (rows : List Byte) (cx : Fin 64) (cy : Fin 32) :
    (s.drawSprite x y rows).disp[cy][cx] = (s.disp[cy][cx] ^^ spriteOn (spriteX s x) (spriteY s y) rows cx cy) :=
  drawRows_cell (spriteX s x) cx.isLt cy.isLt rows (spriteY s y) (s.disp, false)

/-- A DRW collides when its sprite has a 1 on a cell lit before it (spec 43 R157). -/
theorem drawRows_readBytes_hit :
    (drawRows (spriteX s x) (spriteY s y) (s.mem.readBytes s.i.toNat n.val) (s.disp, false)).2 = true ↔
      ∃ cx cy, spriteHas s x y n cx cy ∧ s.disp[cy][cx] = true := by
  simp only [drawRows_hit, spriteOn_readBytes_iff, Bool.false_eq_true, false_or]

/-- VF after a drawn sprite is its collision flag (spec 43 R157). -/
theorem State.drawSprite_reg_vf (s : State) (x y : Reg) (rows : List Byte) :
    (s.drawSprite x y rows).reg vf = flagByte (drawRows (spriteX s x) (spriteY s y) rows (s.disp, false)).2 :=
  (s.drawSprite_reg x y vf rows).trans (if_pos rfl)

/-- Settles O36: a cell is the exclusive or of what it was and the sprite's pixel on it, and VF is 1 when the drawing
turned a cell off. -/
theorem drwXorsTheClippedSprite : Obligations.DrwXorsTheClippedSprite := by
  intro s x y n hb
  refine ⟨_, exec_drw_of_le hb, fun cx cy => ⟨fun hon => ?_, fun hoff => ?_⟩, fun hhit => ?_, fun hmiss => ?_, rfl,
    frame_drawSprite s x y _⟩
  · rw [State.drawSprite_cell, spriteOn_readBytes_iff.mpr hon, Bool.xor_true]
  · rw [State.drawSprite_cell, Bool.eq_false_iff.mpr (mt spriteOn_readBytes_iff.mp hoff), Bool.xor_false]
  · rw [State.drawSprite_reg_vf, drawRows_readBytes_hit.mpr hhit]
    rfl
  · rw [State.drawSprite_reg_vf, Bool.eq_false_iff.mpr (mt drawRows_readBytes_hit.mp hmiss)]
    rfl

end Sys2Proof.Machine
end

section
/-! PROOFS. The keypad instructions and the timer moves (spec 44): what each writes, and its frame. PC is already advanced
here. -/

namespace Sys2Proof.Machine

open Sys2Proof.Spec

variable {s : State} {x : Reg} {k : Fin 16}

/-! ### The key skips -/

/-- An instruction that reads the key V[x] goes on with KEY[k] when V[x] = k (spec 44 R170, R171). -/
theorem orRaise_key_of_reg_eq (h : (s.reg x).toNat = k.val) (f : Bool → State) :
    orRaise s (s.key (s.reg x).toNat) f = .next (f s.keys[k]) := by
  have hlt : (s.reg x).toNat < 16 := h ▸ k.isLt
  rw [State.key_of_lt hlt, orRaise_ok]
  simp only [h, Fin.getElem_fin]

/-- An instruction that reads the key V[x] faults when there is no such key (decision D8, log 9). -/
theorem orRaise_key_of_reg_gt (h : 15 < (s.reg x).toNat) (f : Bool → State) :
    orRaise s (s.key (s.reg x).toNat) f = .next (s.raise (.bounds .keypad (s.reg x).toNat 1)) := by
  rw [State.key_of_ge h, orRaise_error]

/-- PC after a skip taken on a key that is not pressed (spec 44 R171). -/
theorem State.toNat_pc_skipIf_not (s : State) (c : Bool) :
    (s.skipIf (!c)).pc.toNat = if c = true then s.pc.toNat else (s.pc.toNat + 2) % 65536 := by
  cases c <;> rfl

/-- Settles O38: both skips read the same key, and the read faults when V[x] names none. -/
theorem keySkipsFollowTheKey : Obligations.KeySkipsFollowTheKey := by
  refine fun s x => ⟨fun k hk => ?_, fun hx hf => ?_⟩
  · exact ⟨⟨_, orRaise_key_of_reg_eq hk _, s.toNat_pc_skipIf _, frame_skipIf s _⟩,
      ⟨_, orRaise_key_of_reg_eq hk _, s.toNat_pc_skipIf_not _, frame_skipIf s _⟩⟩
  · exact ⟨⟨_, orRaise_key_of_reg_gt hx _, faultsWith_raise hf _⟩, ⟨_, orRaise_key_of_reg_gt hx _, faultsWith_raise hf _⟩⟩

/-! ### The wait for a key -/

/-- With no key pressed, FX0A rewinds (spec 44 R172). -/
theorem exec_ldVxK_of_no_key (h : ∀ k : Fin 16, s.keys[k] = false) (x : Reg) :
    exec (.ldVxK x) s = .next s.rewind := by
  simp only [exec, execLdVxK, State.lowestKey_eq_none.mpr h]

/-- With key `k` the lowest pressed, FX0A writes its index (spec 44 R172). -/
theorem exec_ldVxK_of_lowest (hk : s.keys[k] = true) (hlow : ∀ j : Fin 16, j < k → s.keys[j] = false) (x : Reg) :
    exec (.ldVxK x) s = .next (s.setReg x (BitVec.ofNat 8 k.val)) := by
  simp only [exec, execLdVxK, State.lowestKey_eq_some.mpr ⟨hk, hlow⟩]

/-- The rewind subtracts 2 from PC, modulo 65536 (spec 44 R172). -/
theorem State.toNat_pc_rewind (s : State) : s.rewind.pc.toNat = (s.pc.toNat + 65536 - 2) % 65536 := by
  rw [rewind_pc]
  bv_omega

/-- Settles O39: the search finds no key, or the lowest one, whose index fits a byte. -/
theorem waitForKeyTakesTheLowestKey : Obligations.WaitForKeyTakesTheLowestKey := by
  refine fun s x => ⟨fun hnone => ⟨_, exec_ldVxK_of_no_key hnone x, s.toNat_pc_rewind, frame_setPc s _⟩,
    fun k hk hlow => ⟨_, exec_ldVxK_of_lowest hk hlow x, ?_, frame_setReg s x _⟩⟩
  rw [State.setReg_reg_self, BitVec.toNat_ofNat, Nat.mod_eq_of_lt (by omega)]

/-! ### The timer moves -/

/-- A write of the delay timer changes nothing else. -/
theorem frame_setDt (s : State) (b : Byte) : Frame { dt := true } s (s.setDt b) := by
  constructor <;> simp

/-- A write of the sound timer changes nothing else. -/
theorem frame_setSt (s : State) (b : Byte) : Frame { st := true } s (s.setSt b) := by
  constructor <;> simp

/-- Settles O40: each move is one write, of the byte it copies. -/
theorem timerMovesCopyOneByte : Obligations.TimerMovesCopyOneByte :=
  fun s x => ⟨⟨_, rfl, s.setReg_reg_self x s.dt, frame_setReg s x _⟩, ⟨_, rfl, rfl, frame_setDt s _⟩,
    ⟨_, rfl, rfl, frame_setSt s _⟩⟩

end Sys2Proof.Machine
end

section
/-! PROOFS. The index register and the memory transfers through it (spec 45): what each writes, and its frame. I itself is
never advanced (spec 45 R196). -/

namespace Sys2Proof.Machine

open Sys2Proof.Spec

variable {s : State} {x r : Reg}

/-! ### The index register -/

/-- A write of the index register changes nothing else, VF included (spec 45 R191). -/
theorem frame_setI (s : State) (w : Word) : Frame { i := true } s (s.setI w) := by
  constructor <;> simp

/-- The mask keeps the low digit, and the font starts at address 0 (spec 45 R192). -/
theorem toNat_glyphAddr (b : Byte) : (glyphAddr b).toNat = b.toNat % 16 * 5 := by
  have hmask : (b &&& 0x0F).toNat = b.toNat % 16 :=
    (BitVec.toNat_and b 0x0F).trans (Nat.and_two_pow_sub_one_eq_mod b.toNat 4)
  have hlt : b.toNat % 16 * 5 < 65536 := by omega
  rw [glyphAddr, hmask, BitVec.toNat_ofNat, Nat.zero_add]
  exact Nat.mod_eq_of_lt hlt

/-- Settles O41: I takes the address field, zero-extended. -/
theorem ldISetsIToItsAddress : Obligations.LdISetsIToItsAddress :=
  fun s nnn => ⟨_, rfl, zext16_toNat nnn, frame_setI s _⟩

/-- Settles O42: each of the two is one write of I. -/
theorem indexAddAndGlyphAddress : Obligations.IndexAddAndGlyphAddress :=
  fun s _ => ⟨⟨_, rfl, BitVec.toNat_ofNat _ _, frame_setI s _⟩, ⟨_, rfl, toNat_glyphAddr _, frame_setI s _⟩⟩

/-! ### The stores -/

/-- A block write changes the bytes of its block and nothing else. -/
theorem frame_setMem_writeBytes (s : State) (a : Nat) (bs : List Byte) :
    Frame { mem := (a, bs.length) } s (s.setMem (s.mem.writeBytes a bs)) := by
  constructor
  case mem => exact fun c hc => Memory.read_writeBytes_outside hc
  all_goals simp

/-- LD B in bounds writes the three digits at I and nothing else (spec 45 R193). -/
theorem exec_ldB_of_le (h : s.i.toNat + 3 ≤ Config.memSize) :
    exec (.ldB x) s = .next (s.setMem (s.mem.writeBytes s.i.toNat (bcdDigits (s.reg x)))) := by
  change orRaise s (memWrite s.mem s.i.toNat (bcdDigits (s.reg x))) _ = _
  rw [memWrite_of_le h, orRaise_ok]

/-- LD B faults when the last digit would lie outside memory (spec 45 R193). -/
theorem exec_ldB_of_gt (h : Config.memSize < s.i.toNat + 3) :
    exec (.ldB x) s = .next (s.raise (.bounds .write s.i.toNat 3)) := by
  change orRaise s (memWrite s.mem s.i.toNat (bcdDigits (s.reg x))) _ = _
  rw [memWrite_of_gt h, orRaise_error, length_bcdDigits]

/-- A block store faults when the byte of Vx would lie outside memory (spec 45 R194). -/
theorem exec_ldMemVx_of_gt (h : Config.memSize < s.i.toNat + (x.val + 1)) :
    exec (.ldMemVx x) s = .next (s.raise (.bounds .write s.i.toNat (x.val + 1))) := by
  change orRaise s (memWrite s.mem s.i.toNat (regsUpTo s x)) _ = _
  rw [memWrite_of_gt (by rwa [length_regsUpTo]), orRaise_error, length_regsUpTo]

/-- After the digits of `b` are written at `a`, the byte at `a + k` is digit `k`. -/
theorem Memory.read_writeBytes_bcdDigits {m : Memory} {a : Nat} (hm : m.wf = true) (h : a + 3 ≤ Config.memSize) (b : Byte)
    (k : Fin 3) : (m.writeBytes a (bcdDigits b)).read (a + k.val) = (bcdDigits b)[k] :=
  read_writeBytes_inside h hm k.isLt

/-- A number that does not exceed a byte fits a byte, as each digit of one does. -/
theorem toNat_ofNat_of_le_byte {d : Nat} {b : Byte} (h : d ≤ b.toNat) : (BitVec.ofNat 8 d).toNat = d :=
  (BitVec.toNat_ofNat _ _).trans (Nat.mod_eq_of_lt (h.trans_lt b.isLt))

/-- Settles O43: the bytes of the block are the three digits, none of which exceeds V[x]. -/
theorem ldBStoresTheDecimalDigits : Obligations.LdBStoresTheDecimalDigits := by
  refine fun s x => ⟨fun hm hb => ?_, fun hb hf => ⟨_, exec_ldB_of_gt hb, faultsWith_raise hf _⟩⟩
  have hdigit (k : Fin 3) := congrArg BitVec.toNat (Memory.read_writeBytes_bcdDigits hm hb (s.reg x) k)
  refine ⟨_, exec_ldB_of_le hb, ?_, ?_, ?_, frame_setMem_writeBytes s _ (bcdDigits _)⟩
  · exact (hdigit 0).trans (toNat_ofNat_of_le_byte (Nat.div_le_self _ _))
  · exact (hdigit 1).trans (toNat_ofNat_of_le_byte ((Nat.mod_le _ _).trans (Nat.div_le_self _ _)))
  · exact (hdigit 2).trans (toNat_ofNat_of_le_byte (Nat.mod_le _ _))

/-- Settles O44: byte I + r of the block is V[r]. -/
theorem blockStoreWritesV0ToVx : Obligations.BlockStoreWritesV0ToVx := by
  refine fun s x => ⟨fun hm hb => ⟨_, exec_ldMemVx_of_le hb, fun r hr => ?_, ?_⟩,
    fun hb hf => ⟨_, exec_ldMemVx_of_gt hb, faultsWith_raise hf _⟩⟩
  · exact Memory.read_writeBytes_regsUpTo hm hb hr
  · rw [← length_regsUpTo s x]
    exact frame_setMem_writeBytes s _ _

/-! ### The block load -/

/-- A block load in bounds writes the bytes at I into V0 to Vx (spec 45 R195). -/
theorem exec_ldVxMem_of_le (h : s.i.toNat + (x.val + 1) ≤ Config.memSize) :
    exec (.ldVxMem x) s = .next (s.setV (writeRegs 0 (s.mem.readBytes s.i.toNat (x.val + 1)) s.v)) := by
  change orRaise s (memRead s.mem s.i.toNat (x.val + 1)) _ = _
  rw [memRead_of_le h, orRaise_ok]

/-- A block load faults when the byte for Vx would lie outside memory (spec 45 R195). -/
theorem exec_ldVxMem_of_gt (h : Config.memSize < s.i.toNat + (x.val + 1)) :
    exec (.ldVxMem x) s = .next (s.raise (.bounds .read s.i.toNat (x.val + 1))) := by
  change orRaise s (memRead s.mem s.i.toNat (x.val + 1)) _ = _
  rw [memRead_of_gt h, orRaise_error]

/-- After a block load from `a`, Vr is the byte at `a + r` for every r up to x (spec 45 R195). -/
theorem getElem_writeRegs_readBytes (m : Memory) (a : Nat) (v : RegFile) (hr : r ≤ x) :
    (writeRegs 0 (m.readBytes a (x.val + 1)) v)[r] = m.read (a + r.val) := by
  have hlt : r.val < 0 + (m.readBytes a (x.val + 1)).length := by
    rw [Memory.length_readBytes, Nat.zero_add]
    exact Nat.lt_succ_of_le hr
  have hin : (writeRegs 0 (m.readBytes a (x.val + 1)) v)[r] = (m.readBytes a (x.val + 1))[r.val - 0] :=
    (getElem_writeRegs r.isLt _ 0 v).trans (dif_pos ⟨r.val.zero_le, hlt⟩)
  exact hin.trans (Memory.getElem_readBytes m a _ _ _)

/-- A load of V0 to Vx from a block changes those registers and nothing else. -/
theorem frame_setV_writeRegs (s : State) {bs : List Byte} (hlen : bs.length = x.val + 1) :
    Frame { regs := upTo x } s (s.setV (writeRegs 0 bs s.v)) := by
  constructor
  case regs => exact fun r hr => getElem_writeRegs_above bs s.v hlen hr
  all_goals simp

/-- Settles O45: the bytes read are the ones at I, and no register above x is written. -/
theorem blockLoadReadsV0ToVx : Obligations.BlockLoadReadsV0ToVx :=
  fun s _ => ⟨fun hb => ⟨_, exec_ldVxMem_of_le hb, fun _ hr => getElem_writeRegs_readBytes s.mem s.i.toNat s.v hr,
      frame_setV_writeRegs s (s.mem.length_readBytes _ _)⟩,
    fun hb hf => ⟨_, exec_ldVxMem_of_gt hb, faultsWith_raise hf _⟩⟩

/-- Settles O46: the store keeps I, so the load reads the stored block, and it takes nothing from the registers put in
between. -/
theorem blockLoadAfterBlockStoreRestoresRegisters : Obligations.BlockLoadAfterBlockStoreRestoresRegisters := by
  intro s x v hm hb
  refine ⟨_, _, exec_ldMemVx_of_le hb, exec_ldVxMem_of_le hb, fun r hr => ?_⟩
  calc (writeRegs 0 ((s.mem.writeBytes s.i.toNat (regsUpTo s x)).readBytes s.i.toNat (x.val + 1)) v)[r]
    _ = (s.mem.writeBytes s.i.toNat (regsUpTo s x)).read (s.i.toNat + r.val) := getElem_writeRegs_readBytes _ _ v hr
    _ = s.reg r := Memory.read_writeBytes_regsUpTo hm hb hr

end Sys2Proof.Machine
end

section
/-! PROOFS. The CORE's transaction interface (spec 60): one inversion lemma for `transact`, the statements about every
transaction that follow from it, what each host transaction answers, and the fault record of a step. -/

namespace Sys2Proof.Machine

open Sys2Proof.Spec

variable {s t : State} {tr : Transaction} {k : Nat}

/-! ### What a host operation answers -/

/-- A second fault does not replace the first (spec 60 R235). -/
theorem State.record_of_faulted (hf : s.fault ≠ none) (r : FaultRecord) : s.record r = s := by
  obtain ⟨first, hfirst⟩ := Option.ne_none_iff_exists'.mp hf
  simp only [record, hfirst]

theorem State.tick_of_faulted (hf : s.fault ≠ none) : s.tick = s := by
  obtain ⟨r, hr⟩ := Option.ne_none_iff_exists'.mp hf
  simp only [tick, hr]

theorem State.tick_of_unfaulted (hf : s.fault = none) :
    s.tick = (s.setDt (tickTimer s.dt)).setSt (tickTimer s.st) := by
  simp only [tick, hf]

theorem State.keyEvent_of_le (e : KeyEvent) (k : Fin 16) : s.keyEvent e k.val = s.setKey k (e == .press) :=
  dif_pos k.isLt

theorem State.keyEvent_of_gt (e : KeyEvent) (hk : 15 < k) : s.keyEvent e k = s.raiseHost (.hostContract e k) :=
  dif_neg (Nat.not_lt.mpr hk)

theorem State.load_of_faulted (hf : s.fault ≠ none) (image : Option (List Byte)) :
    s.load image = .refused .loadWhileFaulted := by
  obtain ⟨r, hr⟩ := Option.ne_none_iff_exists'.mp hf
  simp only [load, hr]

/-- A load that is not refused writes the memory, in canonical form (spec 70 R253). -/
theorem State.load_next {image : Option (List Byte)} (h : s.load image = .next t) :
    ∃ m : Memory, (s.mem.wf = true → m.wf = true) ∧ t = s.setMem m := by
  unfold load at h
  split at h
  · cases h
  · cases h
  · split at h
    · rename_i m hm
      exact ⟨m, (memWrite_ok hm).2.2, (Host.Outcome.next.inj h).symm⟩
    · cases h

/-! ### What a transaction does -/

/-- The forms a state can take after a transaction that is not refused, by the pieces of state written. The forms that
write DIRTY name their transaction. -/
inductive HostEffect (s : State) : Transaction → State → Prop
  | step {t : State} (h : Machine.step s = .next t) : HostEffect s .step t
  /-- The queries, and what a faulted CORE does not do (spec 60 R227, R235). -/
  | nothing (tr : Transaction) : HostEffect s tr s
  | tick (dt st : Byte) : HostEffect s .tick ((s.setDt dt).setSt st)
  | key (tr : Transaction) (k : Fin 16) (b : Bool) : HostEffect s tr (s.setKey k b)
  /-- A key event with an index above 15 (spec 60 R226). -/
  | keyFault (tr : Transaction) (f : Fault) : HostEffect s tr (s.raiseHost f)
  | load (image : Option (List Byte)) (m : Memory) (hm : s.mem.wf = true → m.wf = true) :
      HostEffect s (.load image) (s.setMem m)
  | reset : HostEffect s .reset s.resetCore
  | clearDirty : HostEffect s .clearDirty (s.setDirty false)

theorem HostEffect.of_tick : HostEffect s .tick s.tick := by
  by_cases hf : s.fault = none
  · rw [State.tick_of_unfaulted hf]
    exact .tick _ _
  · rw [State.tick_of_faulted hf]
    exact .nothing _

theorem HostEffect.of_keyEvent (tr : Transaction) (e : KeyEvent) (k : Nat) : HostEffect s tr (s.keyEvent e k) := by
  by_cases hk : k < 16
  · exact State.keyEvent_of_le e ⟨k, hk⟩ ▸ .key tr _ _
  · rw [State.keyEvent_of_gt e (by omega)]
    exact .keyFault tr _

theorem HostEffect.of_next {u : State} (h : (.next u : Result) = .next t) (hu : HostEffect s tr u) : HostEffect s tr t :=
  Host.Outcome.next.inj h ▸ hu

/-- Every transaction that answers a next state has one of the listed effects. -/
theorem transact_effect : ∀ tr : Transaction, transact tr s = .next t → HostEffect s tr t
  | .step, h => .step h
  | .tick, h => .of_next h .of_tick
  | .press k, h => .of_next h (.of_keyEvent _ .press k)
  | .release k, h => .of_next h (.of_keyEvent _ .release k)
  | .load image, h => by
      obtain ⟨m, hm, rfl⟩ := State.load_next h
      exact .load image m hm
  | .reset, h => .of_next h .reset
  | .display, h => .of_next h (.nothing _)
  | .clearDirty, h => .of_next h .clearDirty
  | .soundTimer, h => .of_next h (.nothing _)
  | .fault, h => .of_next h (.nothing _)

/-- Settles O15: only the step, the load and the reset write memory, PC or a return address. -/
theorem everyTransactionKeepsTheInvariant : Obligations.EveryTransactionKeepsTheInvariant := by
  intro tr s t hs h
  have ⟨hmem, hpc, hstack⟩ := hs
  cases transact_effect tr h with
  | step ht => exact stepKeepsTheInvariant s t hs ht
  | keyFault _ f => exact ⟨by simpa [State.MemCanonical] using hmem, by simpa using hpc, by simpa using hstack⟩
  | load image m hm => exact ⟨hm hmem, hpc, hstack⟩
  | reset => exact resetMeetsTheInvariant
  | _ => exact ⟨hmem, hpc, hstack⟩

/-! ### The fault record of a step -/

/-- An instruction that faults exactly when `P` holds leaves its fault with its own address, PC - 2, and none otherwise. -/
theorem orRaise_leaves {α : Type} {P : Prop} [Decidable P] {f : Fault} {r : Except Fault α} {q : α → State}
    (hf : s.fault = none) (herr : P → r = .error f) (hok : ¬P → ∃ a, r = .ok a ∧ (q a).fault = none) :
    ∃ t, orRaise s r q = .next t ∧ t.fault = (if P then some f else none).map fun f => ⟨f, some (s.pc - 2)⟩ := by
  by_cases hP : P
  · refine ⟨s.raise f, by rw [herr hP, orRaise_error], ?_⟩
    rw [State.raise_fault, hf, if_pos hP]
    rfl
  · obtain ⟨a, ha, hqa⟩ := hok hP
    refine ⟨q a, by rw [ha, orRaise_ok], ?_⟩
    rw [hqa, if_neg hP]
    rfl

/-- Each instruction leaves the fault the table gives, with its own address (spec 60 R210, R215). -/
theorem exec_leaves_faultOf (hf : s.fault = none) (i : Instr) :
    ∃ t, exec i s = .next t ∧ t.fault = (faultOf i s).map fun f => ⟨f, some (s.pc - 2)⟩ := by
  cases i with
  | ret => exact orRaise_leaves hf State.pop_empty fun hsp => ⟨_, State.pop_of_pos hsp, hf⟩
  | call nnn => exact orRaise_leaves hf State.push_full fun hsp => ⟨_, State.push_of_lt (by omega), hf⟩
  | drw x y n => exact orRaise_leaves hf memRead_of_gt fun hb => ⟨_, memRead_of_le (Nat.not_lt.mp hb), hf⟩
  | ldVxMem x => exact orRaise_leaves hf memRead_of_gt fun hb => ⟨_, memRead_of_le (Nat.not_lt.mp hb), hf⟩
  | ldB x => exact orRaise_leaves hf (memWrite_of_gt (bs := bcdDigits (s.reg x))) fun hb =>
      ⟨_, memWrite_of_le (Nat.not_lt.mp hb), hf⟩
  | ldMemVx x =>
    have hlen := length_regsUpTo s x
    refine orRaise_leaves hf (fun hb => ?_) fun hb => ⟨_, memWrite_of_le ?_, hf⟩
    · rw [← hlen]
      exact memWrite_of_gt (by rwa [hlen])
    · rw [hlen]
      exact Nat.not_lt.mp hb
  | skp x | sknp x =>
    exact orRaise_leaves hf State.key_of_ge fun hk =>
      ⟨_, State.key_of_lt (Nat.lt_succ_of_le (Nat.not_lt.mp hk)), (s.skipIf_fault _).trans hf⟩
  | seImm | sneImm | seReg | sneReg => exact ⟨_, rfl, (s.skipIf_fault _).trans hf⟩
  | ldVxK x =>
    simp only [exec, execLdVxK]
    cases s.lowestKey with
    | none => exact ⟨s.rewind, rfl, hf⟩
    | some k => exact ⟨s.setReg x (BitVec.ofNat 8 k.val), rfl, hf⟩
  | _ => exact ⟨_, rfl, hf⟩

/-- No fault of the table depends on PC. -/
theorem faultOf_advance (i : Instr) (s : State) : faultOf i s.advance = faultOf i s := rfl

/-- Settles O13: the fetch's fault, the instruction's fault after the advance, or an advance over an unrecognized word. -/
theorem stepFaultsExactlyWhereTheTableSays : Obligations.StepFaultsExactlyWhereTheTableSays := by
  intro s hf
  unfold recordAfterStep
  by_cases hb : s.pc.toNat + 2 > 4096
  · refine ⟨_, step_of_pc_gt hf hb, ?_⟩
    rw [State.raiseFetch_fault, hf, if_pos hb]
    rfl
  · have hle := Nat.not_lt.mp hb
    rw [if_neg hb]
    cases hd : decode (wordAtPc s) with
    | instr i =>
      obtain ⟨t, ht, htf⟩ := exec_leaves_faultOf (s := s.advance) hf i
      rw [faultOf_advance, State.advance_pc, BitVec.add_sub_cancel] at htf
      exact ⟨t, (step_of_decode hf hle hd).trans ht, htf⟩
    | reject r => exact ⟨_, step_of_reject hf hle hd, hf⟩

/-! ### A faulted CORE -/

/-- The state after a transaction is its next state, or the state before a refused one. -/
theorem State.after_eq (s : State) (tr : Transaction) : transact tr s = .next (s.after tr) ∨ s.after tr = s := by
  unfold State.after
  cases transact tr s with
  | next t => exact .inl rfl
  | fault _ => exact .inr rfl
  | refused _ => exact .inr rfl

/-- Only a reset writes a fault record that is set. -/
theorem HostEffect.fault (he : HostEffect s tr t) (htr : tr ≠ .reset) (hf : s.fault ≠ none) : t.fault = s.fault := by
  cases he with
  | step h => exact (noStepDoesTheHostsPart s t h).2.2 hf
  | keyFault _ f => exact congrArg State.fault (State.record_of_faulted hf _)
  | reset => exact absurd rfl htr
  | _ => rfl

theorem State.after_fault (htr : tr ≠ .reset) (hf : s.fault ≠ none) : (s.after tr).fault = s.fault := by
  obtain h | h := s.after_eq tr
  · exact (transact_effect tr h).fault htr hf
  · rw [h]

/-- Settles O48, by induction on the session. -/
theorem faultIsTerminalUntilReset : Obligations.FaultIsTerminalUntilReset := by
  intro s r ts hf hts
  induction ts generalizing s with
  | nil => exact hf
  | cons tr ts ih =>
    obtain ⟨htr, hts⟩ := List.forall_mem_cons.mp hts
    have hne : s.fault ≠ none := by simp [hf]
    exact ih (s.after tr) ((State.after_fault htr hne).trans hf) hts

/-! ### Key events, clear_dirty and the tick -/

/-- A write of one key changes that key and nothing else. -/
theorem frame_setKey (s : State) (k : Fin 16) (b : Bool) : Frame { keys := [k.val] } s (s.setKey k b) := by
  constructor
  case keys =>
    intro j hj
    have hne : k.val ≠ j.val := by simpa [eq_comm] using hj
    exact Vector.getElem_set_ne k.isLt j.isLt hne
  all_goals simp

theorem State.setKey_keys_self (s : State) (k : Fin 16) (b : Bool) : (s.setKey k b).keys[k] = b :=
  Vector.getElem_set_self k.isLt

/-- A fault of a host operation is recorded and nothing else changes (spec 60 R217). -/
theorem frame_raiseHost (s : State) (f : Fault) : Frame { fault := true } s (s.raiseHost f) := by
  constructor <;> simp

theorem frame_setDirty (s : State) (b : Bool) : Frame { dirty := true } s (s.setDirty b) := by
  constructor <;> simp

theorem frame_setDt_setSt (s : State) (dt st : Byte) : Frame { dt := true, st := true } s ((s.setDt dt).setSt st) := by
  constructor <;> simp

/-- An event of key 0 to 15 writes its level, faulted or not (spec 60 R226, R235). -/
theorem keyEvent_writes_key (s : State) (e : KeyEvent) (k : Fin 16) :
    (s.keyEvent e k.val).keys[k] = (e == .press) ∧ Frame { keys := [k.val] } s (s.keyEvent e k.val) := by
  rw [State.keyEvent_of_le]
  exact ⟨s.setKey_keys_self k _, frame_setKey s k _⟩

/-- A key event with an index above 15 records its fault in an unfaulted CORE (decision D26, log 13). -/
theorem keyEvent_records_fault (hf : s.fault = none) (e : KeyEvent) (hk : 15 < k) :
    (s.keyEvent e k).fault = some ⟨.hostContract e k, none⟩ ∧ Frame { fault := true } s (s.keyEvent e k) := by
  rw [State.keyEvent_of_gt e hk]
  exact ⟨by rw [State.raiseHost_fault, hf]; rfl, frame_raiseHost s _⟩

/-- A key event with an index above 15 does nothing in a faulted CORE (spec 60 R235). -/
theorem keyEvent_of_faulted (hf : s.fault ≠ none) (e : KeyEvent) (hk : 15 < k) : s.keyEvent e k = s :=
  (State.keyEvent_of_gt e hk).trans (State.record_of_faulted hf _)

/-- Settles O51: an index up to 15 writes its key, and one above it records its fault. -/
theorem keyEventsWriteTheirKey : Obligations.KeyEventsWriteTheirKey :=
  fun s => ⟨fun k => ⟨_, rfl, keyEvent_writes_key s .press k⟩, fun k => ⟨_, rfl, keyEvent_writes_key s .release k⟩,
    fun _ hk hf => ⟨⟨_, rfl, keyEvent_records_fault hf .press hk⟩, ⟨_, rfl, keyEvent_records_fault hf .release hk⟩⟩⟩

theorem clearDirty_clears_dirty (s : State) :
    ∃ t, transact .clearDirty s = .next t ∧ t.dirty = false ∧ Frame { dirty := true } s t :=
  ⟨_, rfl, rfl, frame_setDirty s false⟩

/-- Settles O52: a step sets DIRTY or leaves it, and the other effects leave it. -/
theorem onlyClearDirtyAndResetClearDirty : Obligations.OnlyClearDirtyAndResetClearDirty := by
  refine fun s => ⟨clearDirty_clears_dirty s, fun tr t h hs ht => ?_⟩
  have hne : t.dirty ≠ s.dirty := by simp [hs, ht]
  cases transact_effect tr h with
  | step h =>
    have hdirty := (noStepDoesTheHostsPart s t h).2.1 hs
    exact absurd (hdirty.trans hs.symm) hne
  | keyFault _ f => exact absurd (s.raiseHost_dirty f) hne
  | reset => exact .inr rfl
  | clearDirty => exact .inl rfl
  | _ => exact absurd rfl hne

/-- The decremented timer fits its byte. -/
theorem toNat_tickTimer (b : Byte) : (tickTimer b).toNat = if b.toNat > 0 then b.toNat - 1 else 0 := by
  have hlt := b.isLt
  rw [tickTimer, BitVec.toNat_ofNat, Nat.mod_eq_of_lt (by omega)]
  split <;> omega

/-- Settles O50: both timers are written, from their own old values. -/
theorem tickDecrementsTheTimers : Obligations.TickDecrementsTheTimers :=
  fun s hf => ⟨_, congrArg Host.Outcome.next (State.tick_of_unfaulted hf), toNat_tickTimer s.dt, toNat_tickTimer s.st,
    frame_setDt_setSt s _ _⟩

/-- Settles O49: what works only without a fault does nothing or is refused, and the rest does not look at the fault. -/
theorem faultedCoreAnswersAsListed : Obligations.FaultedCoreAnswersAsListed := by
  intro s r hr
  have hf : s.fault ≠ none := by simp [hr]
  exact ⟨step_of_faulted hf, congrArg _ (State.tick_of_faulted hf), State.load_of_faulted hf, ⟨rfl, rfl⟩, ⟨rfl, rfl⟩,
    ⟨rfl, congrArg _ hr⟩,
    fun k => ⟨_, rfl, keyEvent_writes_key s .press k⟩, fun k => ⟨_, rfl, keyEvent_writes_key s .release k⟩,
    fun _ hk => ⟨congrArg _ (keyEvent_of_faulted hf .press hk), congrArg _ (keyEvent_of_faulted hf .release hk)⟩,
    clearDirty_clears_dirty s, ⟨_, rfl, rfl⟩⟩

/-! ### The queries -/

/-- The reported cells are the rows one after the other. -/
theorem State.displayCells_eq_flatten (s : State) : s.displayCells = s.disp.flatten.toList := by
  have hflat := Array.toList_flatten (xss := s.disp.toArray.map Vector.toArray)
  rw [Array.toList_map, List.map_map] at hflat
  exact List.flatMap_def.trans hflat.symm

theorem State.length_displayCells (s : State) : s.displayCells.length = 2048 := by
  rw [displayCells_eq_flatten, Vector.length_toList]

/-- Cell (x, y) is element y * 64 + x (spec 10 R29). -/
theorem State.getElem?_displayCells (s : State) (y : Fin 32) (x : Fin 64) :
    s.displayCells[y.val * 64 + x.val]? = some s.disp[y][x] := by
  have hrow : (y.val * 64 + x.val) / 64 = y.val := by omega
  have hcol : (y.val * 64 + x.val) % 64 = x.val := by omega
  have hlt : y.val * 64 + x.val < 32 * 64 := by omega
  rw [displayCells_eq_flatten, Vector.getElem?_toList, Vector.getElem?_eq_getElem hlt, Vector.getElem_flatten hlt]
  simp only [hrow, hcol, Fin.getElem_fin]

/-- Settles O55: each query answers the state it was given. -/
theorem queriesReportAndChangeNothing : Obligations.QueriesReportAndChangeNothing :=
  fun s => ⟨⟨rfl, s.displayCells, rfl, s.length_displayCells, s.getElem?_displayCells⟩, ⟨rfl, rfl⟩, ⟨rfl, rfl⟩⟩

end Sys2Proof.Machine
end

section
/-! PROOFS. The program load (spec 70 R253 to R255), how a run stands and where it ends (R263): each status in terms of the
instruction at PC, and what a step does in a run that has ended or waits. -/

namespace Sys2Proof.Machine

open Sys2Proof.Spec

variable {s : State} {w : Word} {i : Instr} {x : Reg} {nnn : Addr12}

/-! ### The load -/

/-- An image that fits between 0x200 and the end of memory is written there (spec 70 R253). -/
theorem State.load_of_le {bytes : List Byte} (hf : s.fault = none) (h : bytes.length ≤ 3584) :
    s.load (some bytes) = .next (s.setMem (s.mem.writeBytes 0x200 bytes)) := by
  have hb : Config.progOrigin + bytes.length ≤ Config.memSize := Nat.add_le_add_left h 0x200
  simp only [load, hf, memWrite_of_le hb]

/-- A longer image is refused (spec 70 R254; decision D17, log 21). -/
theorem State.load_of_gt {bytes : List Byte} (hf : s.fault = none) (h : 3584 < bytes.length) :
    s.load (some bytes) = .refused (.imageTooLong bytes.length) := by
  have hb : Config.memSize < Config.progOrigin + bytes.length := Nat.add_lt_add_left h 0x200
  simp only [load, hf, memWrite_of_gt hb]

/-- An image that cannot be read is refused (spec 70 R255; decision D17, log 21). -/
theorem State.load_unreadable (hf : s.fault = none) : s.load none = .refused .imageUnreadable := by
  simp only [load, hf]

/-- Settles O53: the load is one block write at 0x200, which has room for 3584 bytes. -/
theorem loadPlacesTheImageOrIsRefused : Obligations.LoadPlacesTheImageOrIsRefused := by
  refine fun s hf => ⟨fun bytes hm h => ⟨_, State.load_of_le hf h, fun k hk => ?_, frame_setMem_writeBytes s _ bytes⟩,
    fun _ => State.load_of_gt hf, State.load_unreadable hf⟩
  rw [State.setMem_mem, Memory.read_writeBytes_inside (by rw [memSize_eq]; omega) hm hk, List.getElem?_eq_getElem hk]

/-! ### The words of JP and FX0A -/

/-- The decoder reads an instruction exactly from the word the encoder writes for it. -/
theorem decode_eq_instr_iff : decode w = .instr i ↔ i.WellFormed ∧ encode i = w := by
  refine ⟨encodes_of_decode, ?_⟩
  rintro ⟨hwf, rfl⟩
  exact decode_encode hwf

/-- The words that jump to address `a` of memory. -/
theorem exists_decode_jp_iff {a : Word} (ha : a.toNat < 4096) :
    (∃ nnn, decode w = .instr (.jp nnn) ∧ zext16 nnn = a) ↔ w.toNat = 0x1000 + a.toNat := by
  constructor
  · rintro ⟨nnn, hd, rfl⟩
    obtain ⟨-, rfl⟩ := decode_eq_instr_iff.mp hd
    rw [zext16_toNat]
    exact toNat_encNNN 0x1 nnn
  · intro h
    have htarget : zext16 (nnnOf w) = a := BitVec.eq_of_toNat_eq (by rw [zext16_toNat, toNat_nnnOf]; omega)
    have hop : opOf w = 0x1 := Fin.ext (by rw [val_opOf]; omega)
    exact ⟨nnnOf w, decode_eq_instr_iff.mpr ⟨rfl, encNNN_eq_iff.mpr ⟨hop, rfl⟩⟩, htarget⟩

/-- The word that waits for a key and puts it into Vx. -/
theorem decode_ldVxK_iff : decode w = .instr (.ldVxK x) ↔ w.toNat = 0xF00A + x.val * 256 := by
  have hwf : (Instr.ldVxK x).WellFormed := rfl
  have hword : (encode (.ldVxK x)).toNat = 0xF * 4096 + x.val * 256 + 0x0A := toNat_encXNN 0xF x 0x0A
  rw [decode_eq_instr_iff, and_iff_right hwf, ← BitVec.toNat_inj, hword]
  omega

/-! ### How a run stands -/

/-- The next instruction is the one the word at PC decodes to, when both of its bytes lie in memory. -/
theorem State.nextInstr_eq_some_iff :
    s.nextInstr = some i ↔ s.pc.toNat + 2 ≤ Config.memSize ∧ decode (wordAtPc s) = .instr i := by
  unfold nextInstr wordAtPc
  by_cases hb : s.pc.toNat + 2 ≤ Config.memSize
  · rw [fetchWord_of_le hb, and_iff_right hb]
    cases hd : decode (wordOfBytes (s.mem.read s.pc.toNat) (s.mem.read (s.pc.toNat + 1))) <;> simp [hd]
  · rw [fetchWord_of_gt (Nat.not_le.mp hb)]
    simp [hb]

/-- A run has ended badly when FAULT is set, and only then. -/
theorem State.status_eq_endedBadly_iff : s.status = .endedBadly ↔ s.fault ≠ none := by
  unfold status
  split
  next hf => simp [hf]
  next hf => split <;> simp [hf, ite_eq_iff]

/-- A run without a fault has ended well when the next instruction is a jump to itself, and only then. -/
theorem State.status_eq_endedWell_iff :
    s.status = .endedWell ↔ s.fault = none ∧ ∃ nnn, s.nextInstr = some (.jp nnn) ∧ zext16 nnn = s.pc := by
  unfold status
  split
  next hf => simp [hf]
  next hf =>
    split
    next hi => simp [hf, hi]
    next hi => simp [hi, ite_eq_iff]
    next hjp _ => exact iff_of_false RunStatus.noConfusion fun ⟨_, nnn, hi, _⟩ => hjp nnn hi

/-- A run without a fault waits when the next instruction is FX0A and no key is pressed, and only then. -/
theorem State.status_eq_waitingForKey_iff :
    s.status = .waitingForKey ↔ s.fault = none ∧ (∀ k : Fin 16, s.keys[k] = false) ∧ ∃ x, s.nextInstr = some (.ldVxK x) := by
  rw [← lowestKey_eq_none]
  unfold status
  split
  next hf => simp [hf]
  next hf =>
    split
    next hi => simp [hi, ite_eq_iff]
    next hi => simp [hf, hi]
    next _ hkey => exact iff_of_false RunStatus.noConfusion fun ⟨_, _, x, hi⟩ => hkey x hi

/-- Settles O57: the two instructions at PC that decide the status are read from the words the rule names. -/
theorem statusSaysHowARunStands : Obligations.StatusSaysHowARunStands := by
  refine fun s => ⟨State.status_eq_endedBadly_iff, State.status_eq_endedWell_iff.trans (and_congr_right fun _ => ?_),
    State.status_eq_waitingForKey_iff.trans (and_congr_right fun _ => ?_)⟩
  · simp only [State.nextInstr_eq_some_iff, and_assoc, exists_and_left]
    exact and_congr_right fun hb => exists_decode_jp_iff (by rw [memSize_eq] at hb; omega)
  · simp only [State.nextInstr_eq_some_iff, decode_ldVxK_iff, exists_and_left]
    exact and_left_comm

/-! ### A run that does not go on -/

/-- A jump to its own address changes nothing: it takes back the advance. -/
theorem exec_jp_self_advance (h : zext16 nnn = s.pc) : exec (.jp nnn) s.advance = .next s := by
  rw [exec, execJp, h]
  rfl

/-- FX0A with no key pressed changes nothing: the rewind takes back the advance (spec 44 R172). -/
theorem exec_ldVxK_no_key_advance (h : ∀ k : Fin 16, s.keys[k] = false) (x : Reg) :
    exec (.ldVxK x) s.advance = .next s := by
  have hback : s.advance.rewind = s.setPc (s.pc + 2 - 2) := rfl
  rw [exec_ldVxK_of_no_key (s := s.advance) h, hback, BitVec.add_sub_cancel]
  rfl

/-- Settles O56: a faulted CORE does nothing, and the other two statuses fix the instruction that the step executes. -/
theorem endedAndWaitingStatesRepeat : Obligations.EndedAndWaitingStatesRepeat := by
  intro s hrun
  cases hs : s.status with
  | endedBadly => exact step_of_faulted (State.status_eq_endedBadly_iff.mp hs)
  | endedWell =>
    obtain ⟨hf, nnn, hi, htarget⟩ := State.status_eq_endedWell_iff.mp hs
    obtain ⟨hb, hd⟩ := State.nextInstr_eq_some_iff.mp hi
    exact (step_of_decode hf hb hd).trans (exec_jp_self_advance htarget)
  | waitingForKey =>
    obtain ⟨hf, hkeys, x, hi⟩ := State.status_eq_waitingForKey_iff.mp hs
    obtain ⟨hb, hd⟩ := State.nextInstr_eq_some_iff.mp hi
    exact (step_of_decode hf hb hd).trans (exec_ldVxK_no_key_advance hkeys x)
  | running => exact absurd hs hrun

end Sys2Proof.Machine
end
